-- ==== Sys2Proof/Word.lean ====
section
/-! DEFINITION. The word types: the `W`-bit operand vector and the text a user types. -/

namespace Sys2Proof

/-- An operand or result: a vector of `W` bits, bit 0 the least significant (rules R7, R12). -/
abbrev Operand (W : Nat) := BitVec W

/-- A finite string of characters, as the Normalizer takes it (rule R58). -/
abbrev Text := List Char

end Sys2Proof
end

