-- ==== Sys2Proof/Config.lean ====
section
/-! DEFINITION. The block's one configuration parameter, the bit width `W` (rules R5, R6, R11). The spec leaves no
value open (rule R9), so there is no free value here. -/

namespace Sys2Proof.Config

/-- The width when nothing is chosen: "a positive integer constant (default 8)" (rules R5, R82). -/
def defaultWidth : Nat := 8

/-- The smallest legal width; there is no largest (rule R5, decision D17). -/
def minWidth : Nat := 1

end Sys2Proof.Config
end

