-- ==== Sys2Proof/Syntax.lean ====
section
/-! DEFINITION. The invocation as syntax: the mode, the two instructions of the opcode map and the request word that
carries an invocation to the block (rules R13, R32, R34, R37). -/

namespace Sys2Proof

/-- The mode input: exactly two values (rule R13). -/
inductive Mode where
  | unsigned
  | signed
  deriving DecidableEq, Repr

/-- One invocation of the block: one constructor per row of the opcode map (rule R37). The two operands have one
width by typing; whether it is the session's width is a check of `Instr.wf` (rule R52). -/
inductive Instr where
  /-- `ADDU a, b`, that is `add(a, b, Unsigned)` (rule R55). -/
  | addu (width : Nat) (a b : Operand width)
  /-- `ADDS a, b`, that is `add(a, b, Signed)` (rule R56). -/
  | adds (width : Nat) (a b : Operand width)
  deriving DecidableEq, Repr

/-- A word presented to the block: how many bits it has, and the bits. A request word for width `W` has `2 * W + 1`
bits (rule R34); a word of any other length is no request word (rule R38). -/
structure RequestWord where
  len  : Nat
  bits : BitVec len
  deriving DecidableEq, Repr

end Sys2Proof
end

