-- ==== Sys2Proof/WellFormed.lean ====
section
/-! DEFINITION. The fields of an invocation and when it is well formed for a session of width `W` (rules R5, R52). -/

namespace Sys2Proof

/-- The width of both operands. -/
def Instr.width : Instr → Nat
  | .addu w _ _ => w
  | .adds w _ _ => w

/-- The mode of the invocation, which is its row of the opcode map (rule R37). -/
def Instr.mode : Instr → Mode
  | .addu _ _ _ => .unsigned
  | .adds _ _ _ => .signed

/-- The first operand. -/
def Instr.operandA : (i : Instr) → Operand i.width
  | .addu _ a _ => a
  | .adds _ a _ => a

/-- The second operand. -/
def Instr.operandB : (i : Instr) → Operand i.width
  | .addu _ _ b => b
  | .adds _ _ b => b

/-- `W` is a legal width: a positive integer (rule R5). -/
def legalWidth (W : Nat) : Bool := decide (Config.minWidth ≤ W)

/-- An invocation a session of width `W` may make: `W` is legal and both operands have `W` bits (rules R5, R52). -/
def Instr.wf (W : Nat) (i : Instr) : Bool := legalWidth W && decide (i.width = W)

end Sys2Proof
end

