-- ==== Sys2Proof/Decode.lean ====
section
/-! DEFINITION. The decoder from request words to invocations and, after it, the encoder (rules R33, R34, R37, R38).
The decoder is total; it turns a word away by name only where the spec says that the word is no request word. -/

namespace Sys2Proof

/-- Why a presented word is no request word of the session. -/
inductive DecodeError where
  /-- The word does not have `2 * W + 1` bits (rule R38, entry U2). -/
  | requestLength
  /-- The session's width is not positive (rule R5, entry U5). -/
  | zeroWidth
  deriving DecidableEq, Repr

/-- The mode on a wire: Unsigned = 0, Signed = 1 (rule R33). -/
def Mode.toBit : Mode → Bool
  | .unsigned => false
  | .signed => true

/-- The mode a wire carries (rule R33). -/
def Mode.ofBit : Bool → Mode
  | false => .unsigned
  | true => .signed

/-- The number of bits of a request word (rules R34, R39). -/
def requestLength (W : Nat) : Nat := 2 * W + 1

/-- `add(a, b, mode)` as an instruction of the opcode map (rule R37). -/
def instrOf (W : Nat) (mode : Mode) (a b : Operand W) : Instr :=
  match mode with
  | .unsigned => .addu W a b
  | .signed => .adds W a b

/-- The mode field of a request word, `REQ[2W]` (rule R34). -/
def reqMode {W : Nat} (req : BitVec (2 * W + 1)) : Mode := Mode.ofBit (req.getLsbD (2 * W))

/-- The first operand, `a[i] = REQ[W+i]` (rule R34). -/
def reqA {W : Nat} (req : BitVec (2 * W + 1)) : Operand W := req.extractLsb' W W

/-- The second operand, `b[i] = REQ[i]` (rule R34). -/
def reqB {W : Nat} (req : BitVec (2 * W + 1)) : Operand W := req.extractLsb' 0 W

/-- The decoder for width `W`: bit `2W` chooses the row, the operands are sliced out. Every request word decodes to
exactly one of the two rows (rules R37, R38). -/
def decodeReq (W : Nat) (req : BitVec (2 * W + 1)) : Instr := instrOf W (reqMode req) (reqA req) (reqB req)

/-- The decoder on a word of any length, in a session of width `W` (rules R37, R38; entries U2, U5). -/
def decodeWord (W : Nat) (r : RequestWord) : Except DecodeError Instr :=
  if legalWidth W then
    if h : r.len = 2 * W + 1 then .ok (decodeReq W (r.bits.cast h)) else .error .requestLength
  else .error .zeroWidth

/-- The request word `REQ = mode || a || b` (rule R34). -/
def packReq {W : Nat} (mode : Mode) (a b : Operand W) : BitVec (2 * W + 1) :=
  (BitVec.ofBool mode.toBit ++ a ++ b).cast (by omega)

/-- The encoder: the request word of an invocation (rules R34, R37). -/
def encode : (i : Instr) → BitVec (2 * i.width + 1)
  | .addu _ a b => packReq .unsigned a b
  | .adds _ a b => packReq .signed a b

/-- The request word of an invocation, as a word to present. -/
def encodeWord (i : Instr) : RequestWord := ⟨2 * i.width + 1, encode i⟩

/-- The word that carries the number `w mod 2^nbits`, in a session of width `W`: a request word where the number fits
`2W+1` bits (the bits above are zero), else a word of `nbits` bits, which is no request word (log 10). -/
def wordOfNat (W nbits w : Nat) : RequestWord :=
  if w % 2 ^ nbits < 2 ^ requestLength W then ⟨requestLength W, BitVec.ofNat _ (w % 2 ^ nbits)⟩
  else ⟨nbits, BitVec.ofNat _ w⟩

/-- The invocation read from a word of the opcode table, whose patterns stand for the default width (rule R37). -/
def decodeTableWord (nbits w : Nat) : Option Instr :=
  match decodeWord Config.defaultWidth (wordOfNat Config.defaultWidth nbits w) with
  | .ok i => some i
  | .error _ => none

end Sys2Proof
end

