-- ==== Sys2Proof/Machine/State.lean ====
section
/-! DEFINITION. The Result record, the port records, the state and its value at reset. No operation stores anything
for a later invocation (rule R10): the state holds the configuration, the word on the input ports and the Result that
is handed to the host. -/

namespace Sys2Proof.Machine

/-- The Result record of one invocation, its fields those of rule R15. The flags are outputs, not a register
(rule R14). -/
structure Result (W : Nat) where
  /-- The wrapped sum (rule R44). -/
  resultBits : Operand W
  /-- C (rule R47). -/
  carry : Bool
  /-- Z (rule R45). -/
  zero : Bool
  /-- S (rule R46). -/
  sign : Bool
  /-- O (rule R48). -/
  overflow : Bool
  /-- Always present (rule R49). -/
  unsignedValue : Nat
  /-- `none` is the spec's `absent` (rule R50). -/
  signedValue : Option Int
  deriving DecidableEq, Repr

/-- The input ports (rule R23). -/
structure InPorts (W : Nat) where
  a : Operand W
  b : Operand W
  mode : Bool
  deriving DecidableEq, Repr

/-- The output ports (rule R23): one record that belongs to one input triple (rule R84). -/
structure OutPorts (W : Nat) where
  result : Operand W
  c : Bool
  z : Bool
  s : Bool
  o : Bool
  signedValid : Bool
  deriving DecidableEq, Repr

/-- A Result together with its width. -/
structure Response where
  width : Nat
  result : Result width
  deriving DecidableEq, Repr

/-- What stands at the block's boundary. -/
structure State where
  /-- `W`: configuration that no operation writes (rules R11, R82; log 1). -/
  width : Nat
  /-- The word the host holds on the inputs, if it has presented one (rules R12, R13, R34, R86; log 2). -/
  request : Option RequestWord
  /-- The model's own field: the Result of the last evaluation, for the host to take (rules R15, R86; log 3).
  No meaning reads it. -/
  response : Option Response
  deriving DecidableEq, Repr

/-- Why the machine faults: the Engine raises no exception of any kind, so there is no reason (rules R51, R72).
Nobody raises one; safe. -/
inductive Fault where
  deriving DecidableEq, Repr

/-- Why an invocation is refused. The spec's own treatment of each of the last three is `refuse`. -/
inductive Refusal where
  /-- An instruction without a meaning; raised by no arm of `exec`; safe. -/
  | notModelled (mnemonic : String)
  /-- The word on the inputs does not have `2 * W + 1` bits (rule R38, entry U2). Raised by `step`; safe. -/
  | requestLength
  /-- The operands do not have the session's width (rules R52, R82, entries U1, U3). Raised by both meanings; safe. -/
  | operandWidth
  /-- The session's width is not positive (rule R5, entry U5). Raised by `step`, by both meanings and by
  `State.presentTexts`; safe. -/
  | zeroWidth
  deriving DecidableEq, Repr

/-- The block before the first invocation: the width is the default one, nothing is presented, and there is no Result
to speak of (rules R5, R81, R82; log 5). -/
def State.reset : State := { width := Config.defaultWidth, request := none, response := none }

end Sys2Proof.Machine
end

