-- ==== Sys2Proof/Machine/Ops.lean ====
section
/-! DEFINITION. The carry chain and the sum bits (rules R16, R41 to R44), and the three operations on the state: the
host presents a word, a Result is handed out, the outputs are left empty. There is no register to read or write, no
memory, and no exception to take or return from (rules R18 to R21, R72, R76, R77). -/

namespace Sys2Proof.Machine

/-- The majority of three bits (00_scope.md section 4.1). -/
def maj (p q r : Bool) : Bool := (p && q) || (p && r) || (q && r)

/-- The sum bit of one full adder (rule R41). -/
def fullSum (p q r : Bool) : Bool := (p ^^ q) ^^ r

/-- `c[i]`, the carry into position `i`; `c[0]` is the constant 0 and `c[W]` the carry out of the MSB (rule R41). -/
def carryInto {W : Nat} (a b : Operand W) : Nat → Bool
  | 0 => false
  | i + 1 => maj (a.getLsbD i) (b.getLsbD i) (carryInto a b i)

/-- `s[i]` (rule R41). -/
def sumBit {W : Nat} (a b : Operand W) (i : Nat) : Bool := fullSum (a.getLsbD i) (b.getLsbD i) (carryInto a b i)

/-- The vector whose bit `i` is `f i`. -/
def collect (f : Nat → Bool) : (n : Nat) → BitVec n
  | 0 => 0#0
  | n + 1 => BitVec.cons (f n) (collect f n)

/-- `result_bits`: the `W` sum bits; the carry beyond the MSB is discarded (rule R44). -/
def sumBits {W : Nat} (a b : Operand W) : Operand W := collect (sumBit a b) W

/-- The host presents a word on the inputs (rule R86). -/
def State.present (s : State) (r : RequestWord) : State := { s with request := some r }

/-- The Engine hands out a Result (rule R86). -/
def State.respond {W : Nat} (s : State) (r : Result W) : State := { s with response := some ⟨W, r⟩ }

/-- No word is presented, so there is no Result (rule R81; log 4). -/
def State.idle (s : State) : State := { s with response := none }

end Sys2Proof.Machine
end

