-- ==== Sys2Proof/Machine/Operands.lean ====
section
/-! DEFINITION. The readings of a vector, its string, and the pattern a host makes to enter a negative operand
(rules R7, R8, R49, R50, R71). -/

namespace Sys2Proof.Machine

/-- `val(v)` (rule R8). -/
def val {W : Nat} (v : Operand W) : Nat := v.toNat

/-- The most significant bit, `v[W-1]` (rule R7). -/
def msb {W : Nat} (v : Operand W) : Bool := v.getLsbD (W - 1)

/-- `sval(v)`; the complement is of the vector, the `+ 1` and the negation are of integers (rule R8). -/
def sval {W : Nat} (v : Operand W) : Int := if msb v then -((val (~~~v) : Int) + 1) else (val v : Int)

/-- `bits_W(n)` for a natural number (00_scope.md section 4.1). -/
def bitsOf (W n : Nat) : Operand W := BitVec.ofNat W n

/-- `str(v)`: character `k` is `v[W-1-k]` (rule R7). -/
def str {W : Nat} (v : Operand W) : Text := (List.range W).map fun k => if v.getLsbD (W - 1 - k) then '1' else '0'

/-- `unsigned_value`, in both modes (rule R49). -/
def unsignedReading {W : Nat} (r : Operand W) : Nat := val r

/-- `signed_value`: present in Signed mode only (rule R50). -/
def signedReading {W : Nat} (mode : Mode) (r : Operand W) : Option Int :=
  match mode with
  | .unsigned => none
  | .signed => some (sval r)

/-- The two's-complement pattern of `-y`, which the host computes and hands in as an operand (rule R71). -/
def negPattern {W : Nat} (y : Operand W) : Operand W := bitsOf W (2 ^ W - val y)

end Sys2Proof.Machine
end

