-- ==== Sys2Proof/Machine/Flags.lean ====
section
/-! DEFINITION. The four flags (rules R42, R43, R45 to R48). -/

namespace Sys2Proof.Machine

/-- `carry_into_msb = c[W-1]`, also for `W = 1` (rule R42). -/
def carryIntoMsb {W : Nat} (a b : Operand W) : Bool := carryInto a b (W - 1)

/-- `carry_out_of_msb = c[W]` (rule R43). -/
def carryOutOfMsb {W : Nat} (a b : Operand W) : Bool := carryInto a b W

/-- C, in both modes (rule R47). -/
def carryFlag {W : Nat} (a b : Operand W) : Bool := carryOutOfMsb a b

/-- Z: every result bit is 0 (rule R45). -/
def zeroFlag {W : Nat} (r : Operand W) : Bool := r == 0#W

/-- S: the result's MSB, in both modes (rule R46). -/
def signFlag {W : Nat} (r : Operand W) : Bool := msb r

/-- O: the constant 0 in Unsigned mode, else the XOR of the two carries at the MSB (rule R48). -/
def overflowFlag {W : Nat} (mode : Mode) (a b : Operand W) : Bool :=
  match mode with
  | .unsigned => false
  | .signed => carryIntoMsb a b ^^ carryOutOfMsb a b

end Sys2Proof.Machine
end

