-- ==== Sys2Proof/Machine/Adder.lean ====
section
/-! DEFINITION. The Adder/Flag Engine: `add(a, b, mode)` and the meanings of ADDU and ADDS (rules R41 to R56). -/

namespace Sys2Proof.Machine

/-- `add(a, b, mode)`: a total function of its inputs (rules R10, R32, R51). -/
def engineAdd {W : Nat} (mode : Mode) (a b : Operand W) : Result W :=
  { resultBits := sumBits a b
    carry := carryFlag a b
    zero := zeroFlag (sumBits a b)
    sign := signFlag (sumBits a b)
    overflow := overflowFlag mode a b
    unsignedValue := unsignedReading (sumBits a b)
    signedValue := signedReading mode (sumBits a b) }

/-- One invocation in the session `s`: refused where the width is not positive or the operands are not of the
session's width, and otherwise always completed (rules R5, R51, R52, R82; entries U1, U3, U5). -/
def invoke (mode : Mode) (w : Nat) (a b : Operand w) (s : State) : Host.Outcome State Fault Refusal :=
  if legalWidth s.width then
    if w = s.width then .next (s.respond (engineAdd mode a b)) else .refused .operandWidth
  else .refused .zeroWidth

/-- `ADDU a, b` (rule R55). -/
def execAddu (w : Nat) (a b : Operand w) (s : State) : Host.Outcome State Fault Refusal :=
  invoke .unsigned w a b s

/-- `ADDS a, b` (rule R56). -/
def execAdds (w : Nat) (a b : Operand w) (s : State) : Host.Outcome State Fault Refusal :=
  invoke .signed w a b s

end Sys2Proof.Machine
end

