-- ==== Sys2Proof/Machine/Dispatch.lean ====
section
/-! DEFINITION. One arm per instruction of the opcode map (rule R37). -/

namespace Sys2Proof.Machine

def exec (i : Instr) (s : State) : Host.Outcome State Fault Refusal :=
  match i with
  | .addu w a b => Sys2Proof.Machine.execAddu w a b s
  | .adds w a b => Sys2Proof.Machine.execAdds w a b s

end Sys2Proof.Machine
end

