-- ==== Sys2Proof/Machine/Fetch.lean ====
section
/-! DEFINITION. Taking the word on the inputs and decoding it. There is no program counter and no instruction stream
(rules R19, R31): the block evaluates the word the host holds on its inputs (rule R86). -/

namespace Sys2Proof.Machine

/-- What the word on the inputs asks for; `none` where the host has presented nothing (rules R81, R86). -/
def fetchDecode (s : State) : Option (Except DecodeError Instr) := s.request.map (decodeWord s.width)

/-- The refusal of a word that is no request word (entries U2, U5). -/
def refusalOf : DecodeError → Refusal
  | .requestLength => .requestLength
  | .zeroWidth => .zeroWidth

/-- The session with the number `w mod 2^nbits` on its inputs (log 10). -/
def State.presentNat (s : State) (nbits w : Nat) : State := s.present (wordOfNat s.width nbits w)

end Sys2Proof.Machine
end

