-- ==== Sys2Proof/Machine/Step.lean ====
section
/-! DEFINITION. One step: one evaluation of the block for the word on its inputs (rules R32, R86). -/

namespace Sys2Proof.Machine

/-- Evaluate the word on the inputs; with nothing presented there is no invocation and no Result (rule R81; log 4). -/
def step (s : State) : Host.Outcome State Fault Refusal :=
  match fetchDecode s with
  | none => .next s.idle
  | some (.error e) => .refused (refusalOf e)
  | some (.ok i) => exec i s

/-- The session with a table word on its inputs, so that the next step evaluates exactly it (logs 6 and 10). -/
def State.withFetchWord (s : State) (nbits w : Nat) : State := s.presentNat nbits w

end Sys2Proof.Machine
end

