-- ==== Sys2Proof/Machine/Normalizer.lean ====
section
/-! DEFINITION. The Operand Normalizer: the host-side functions NORM.BIN and NORM.DEC from text to a `W`-bit operand or
one of four errors (rules R58 to R66, R73 to R75). It is no part of the datapath and touches no state. Each function
takes the premise `W >= 1`, so a call at width 0 cannot be written (rule R5, entry U5). -/

namespace Sys2Proof.Machine

/-- How one operand's text is to be read; chosen per call, never stored (rules R58, R65). -/
inductive RepresentationKind where
  | binary
  | decimal
  deriving DecidableEq, Repr

/-- The four error kinds; none carries a payload (rule R73). -/
inductive NormalizationError where
  | emptyOperand
  | invalidNumeral
  | outOfRange
  | tooLong
  deriving DecidableEq, Repr

/-- The numeric code of an error kind (rule R73, decision D13). -/
def errorCode : NormalizationError → Nat
  | .emptyOperand => 1
  | .invalidNumeral => 2
  | .outOfRange => 3
  | .tooLong => 4

/-- The whitespace set: space, tab, LF, VT, FF, CR (rule R59, decision D11). -/
def whitespace : List Nat := [0x20, 0x09, 0x0A, 0x0B, 0x0C, 0x0D]

/-- A character of the whitespace set. -/
def isWhitespace (c : Char) : Bool := whitespace.contains c.toNat

/-- `trim(raw)`: every leading and trailing whitespace character removed (rule R59). -/
def trim (raw : Text) : Text := ((raw.dropWhile isWhitespace).reverse.dropWhile isWhitespace).reverse

/-- U+0030 or U+0031 (rule R60). -/
def isBinaryDigit (c : Char) : Bool := c.toNat == 0x30 || c.toNat == 0x31

/-- U+0030 to U+0039 (rule R61). -/
def isDecimalDigit (c : Char) : Bool := decide (0x30 ≤ c.toNat) && decide (c.toNat ≤ 0x39)

/-- The value of a digit. -/
def digitValue (c : Char) : Nat := c.toNat - 0x30

/-- The integer a digit string denotes in a base, first character most significant, without any size limit
(rule R61, decision D19). -/
def numeralValue (base : Nat) (t : Text) : Nat := t.foldl (fun n c => base * n + digitValue c) 0

/-- The vector `v` with `str(v)` equal to a `W`-character string (rules R7, R60). -/
def vectorOf (W : Nat) (t : Text) : Operand W := collect (fun i => t.getD (W - 1 - i) '0' == '1') W

/-- NORM.BIN (rule R60), its checks in the order of rule R62. -/
def normBin (W : Nat) (_hW : 1 ≤ W) (raw : Text) : Except NormalizationError (Operand W) :=
  let t := trim raw
  if t.length = 0 then .error .emptyOperand
  else if !t.all isBinaryDigit then .error .invalidNumeral
  else if W < t.length then .error .tooLong
  else .ok (vectorOf W (List.replicate (W - t.length) '0' ++ t))

/-- NORM.DEC (rule R61), its checks in the order of rule R62. -/
def normDec (W : Nat) (_hW : 1 ≤ W) (raw : Text) : Except NormalizationError (Operand W) :=
  let t := trim raw
  if t.length = 0 then .error .emptyOperand
  else if !t.all isDecimalDigit then .error .invalidNumeral
  else if 2 ^ W - 1 < numeralValue 10 t then .error .outOfRange
  else .ok (bitsOf W (numeralValue 10 t))

/-- `normalize(raw, representation, width)` (rule R58). -/
def normalizeText (raw : Text) (kind : RepresentationKind) (W : Nat) (hW : 1 ≤ W) :
    Except NormalizationError (Operand W) :=
  match kind with
  | .binary => normBin W hW raw
  | .decimal => normDec W hW raw

end Sys2Proof.Machine
end

