-- ==== Sys2Proof/Machine/Assembly.lean ====
section
/-! DEFINITION. The written form of an invocation, `ADDU a, b` or `ADDS a, b` (rule R40). It is the spec's own spelling
for its vectors, not input the Normalizer accepts. -/

namespace Sys2Proof.Machine

/-- An operand as `0b` followed by exactly `W` binary digits (rule R40). -/
def printOperand {W : Nat} (v : Operand W) : Text := '0' :: 'b' :: str v

/-- The letter that tells the two mnemonics apart (rule R37). -/
def mnemonicLetter : Mode → Char
  | .unsigned => 'U'
  | .signed => 'S'

/-- The written form of an invocation (rule R40; log 12). -/
def printInstr (i : Instr) : Text :=
  'A' :: 'D' :: 'D' :: mnemonicLetter i.mode :: ' ' :: (printOperand i.operandA ++ ',' :: ' ' :: printOperand i.operandB)

/-- A written operand: `0b` and exactly `W` binary digits, or a decimal number that fits (rule R40; log 12). -/
def parseOperand (W : Nat) : Text → Option (Operand W)
  | '0' :: 'b' :: t => if t.length = W ∧ t.all isBinaryDigit then some (vectorOf W t) else none
  | t => if t.length ≠ 0 ∧ t.all isDecimalDigit ∧ numeralValue 10 t ≤ 2 ^ W - 1 then some (bitsOf W (numeralValue 10 t)) else none

/-- The mode a mnemonic's letter stands for (rule R37). -/
def parseMode (c : Char) : Option Mode :=
  if c = 'U' then some .unsigned else if c = 'S' then some .signed else none

/-- The two operand texts, split at the first comma and the space after it. -/
def splitOperands (t : Text) : Option (Text × Text) :=
  match t.span (· != ',') with
  | (x, ',' :: ' ' :: y) => some (x, y)
  | _ => none

/-- The invocation a written form denotes in a session of width `W` (rule R40; log 12). -/
def parseInstr (W : Nat) : Text → Option Instr
  | 'A' :: 'D' :: 'D' :: c :: ' ' :: t => do
    let mode ← parseMode c
    let (x, y) ← splitOperands t
    let a ← parseOperand W x
    let b ← parseOperand W y
    if legalWidth W then some (instrOf W mode a b) else none
  | _ => none

end Sys2Proof.Machine
end

