-- ==== Sys2Proof/Machine/HostEntry.lean ====
section
/-! DEFINITION. The host's use of the two functions: two texts, two calls of the Normalizer, and one invocation of the
Engine only if both calls returned operands (rules R2, R65, R66, R75). -/

namespace Sys2Proof.Machine

/-- One operand as a user typed it: its text and how to read it (rule R65). -/
structure TextOperand where
  raw : Text
  kind : RepresentationKind
  deriving DecidableEq, Repr

/-- What the host holds at the end: a Result, or the error kind of each operand that failed (rule R75). -/
inductive HostOutcome (W : Nat) where
  | added (r : Result W)
  | notInvoked (a b : Option NormalizationError)
  deriving DecidableEq, Repr

/-- The error kind of a call that failed. -/
def errorOf {α : Type} : Except NormalizationError α → Option NormalizationError
  | .ok _ => none
  | .error e => some e

/-- The two normalizations, each with its own outcome; an operand pair only if both succeed (rules R66, R75). -/
def enterOperands (W : Nat) (hW : 1 ≤ W) (x y : TextOperand) :
    Except (Option NormalizationError × Option NormalizationError) (Operand W × Operand W) :=
  match normalizeText x.raw x.kind W hW, normalizeText y.raw y.kind W hW with
  | .ok a, .ok b => .ok (a, b)
  | ra, rb => .error (errorOf ra, errorOf rb)

/-- Text in, Result out (rule R2); a call at width 0 cannot be written (entry U5). -/
def addTexts (W : Nat) (hW : 1 ≤ W) (x y : TextOperand) (mode : Mode) : HostOutcome W :=
  match enterOperands W hW x y with
  | .ok (a, b) => .added (engineAdd mode a b)
  | .error (ea, eb) => .notInvoked ea eb

/-- What comes of presenting two texts to a session. -/
inductive EntryOutcome where
  /-- Both texts normalized: the session with the request word on its inputs. -/
  | presented (t : State)
  /-- A text failed: nothing is presented, and the host holds each failed operand's error kind (rules R66, R75). -/
  | notInvoked (a b : Option NormalizationError)
  /-- The session is none: its width is not positive (rule R5, entry U5). -/
  | refused (r : Refusal)
  deriving DecidableEq, Repr

/-- The host presents two texts to the block: on success the request word stands on the inputs, on failure nothing is
presented and the host has the error kinds; at width 0 the host is refused (rules R5, R66, R76). -/
def State.presentTexts (s : State) (x y : TextOperand) (mode : Mode) : EntryOutcome :=
  if hW : 1 ≤ s.width then
    match enterOperands s.width hW x y with
    | .ok (a, b) => .presented (s.present ⟨2 * s.width + 1, packReq mode a b⟩)
    | .error (ea, eb) => .notInvoked ea eb
  else .refused .zeroWidth

end Sys2Proof.Machine
end

