-- ==== Sys2Proof/Machine/Response.lean ====
section
/-! DEFINITION. The ports and the response word: other views of the inputs and of a Result (rules R23, R35). -/

namespace Sys2Proof.Machine

/-- The input ports that a request word drives (rules R23, R33, R34). -/
def reqPorts {W : Nat} (req : BitVec (2 * W + 1)) : InPorts W :=
  { a := reqA req, b := reqB req, mode := (reqMode req).toBit }

/-- The input ports of the session, where a request word of the right length is presented. -/
def State.inPorts (s : State) : Option (InPorts s.width) :=
  s.request.bind fun r => if h : r.len = 2 * s.width + 1 then some (reqPorts (r.bits.cast h)) else none

/-- The output ports of a Result; the decimal values have none, `signed_valid` says whether `signed_value` is present
(rule R23). -/
def Result.outPorts {W : Nat} (r : Result W) : OutPorts W :=
  { result := r.resultBits, c := r.carry, z := r.zero, s := r.sign, o := r.overflow, signedValid := r.signedValue.isSome }

/-- The block as a combinational function from its input ports to its output ports, of a positive width (rules R5,
R10, R23). -/
def combinational {W : Nat} (_hW : 1 ≤ W) (p : InPorts W) : OutPorts W := (engineAdd (Mode.ofBit p.mode) p.a p.b).outPorts

/-- The response word `RSP = O || S || Z || C || result` (rule R35). -/
def Result.rspWord {W : Nat} (r : Result W) : BitVec (W + 4) :=
  (BitVec.ofBool r.overflow ++ BitVec.ofBool r.sign ++ BitVec.ofBool r.zero ++ BitVec.ofBool r.carry
    ++ r.resultBits).cast (by omega)

/-- The Result a host reads from a response word, given the mode it asked for: the two decimal values are readings of
`RSP[W-1:0]` (rules R35, R49, R50). -/
def readRsp {W : Nat} (mode : Mode) (rsp : BitVec (W + 4)) : Result W :=
  { resultBits := rsp.extractLsb' 0 W
    carry := rsp.getLsbD W
    zero := rsp.getLsbD (W + 1)
    sign := rsp.getLsbD (W + 2)
    overflow := rsp.getLsbD (W + 3)
    unsignedValue := unsignedReading (rsp.extractLsb' 0 W)
    signedValue := signedReading mode (rsp.extractLsb' 0 W) }

end Sys2Proof.Machine
end

