-- ==== Sys2Proof/Machine/Session.lean ====
section
/-! DEFINITION. A host that makes one invocation after another (rules R29, R86): the answers it receives. -/

namespace Sys2Proof.Machine

/-- The session after a step; a refused word leaves it as it is. -/
def State.afterStep (s : State) : State :=
  match step s with
  | .next t => t
  | .fault _ => s
  | .refused _ => s

/-- The host presents one word after another in one session and keeps every answer. -/
def runWords : State → List RequestWord → List (Host.Outcome State Fault Refusal)
  | _, [] => []
  | s, r :: rest => step (s.present r) :: runWords (s.present r).afterStep rest

end Sys2Proof.Machine
end

