-- ==== Sys2Proof/Safety.lean ====
section
/-! DEFINITION. What counts as a safe run: a legal width and outputs that are one consistent Result of the session's
width, those of the word on the inputs; and the flag combinations that occur (rules R5, R10, R17, R54). -/

namespace Sys2Proof.Machine

/-- The fields of a Result fit together as rules R45, R46, R48 to R50 and R54 say: Z and S are those of the result
bits, the unsigned value is theirs, either there is no signed value and O is 0 or the signed value is theirs, and
O = 1 only where C and S differ. -/
def Result.consistent {W : Nat} (r : Result W) : Bool :=
  r.zero == zeroFlag r.resultBits && r.sign == signFlag r.resultBits && r.unsignedValue == unsignedReading r.resultBits &&
    ((r.signedValue == none && !r.overflow) || r.signedValue == some (sval r.resultBits)) &&
    (!r.overflow || r.carry != r.sign)

/-- The session's invariant: a legal width, and outputs, where there are any, that are one consistent Result of the
session's width (rules R5, R17). -/
def State.inv (s : State) : Bool :=
  legalWidth s.width && s.response.all fun r => decide (r.width = s.width) && r.result.consistent

/-- The outputs are those of the word on the inputs: none where nothing is presented, and else the Result of `add` on
the word's own fields (rules R10, R81). -/
def State.settled (s : State) : Prop :=
  match s.request with
  | none => s.response = none
  | some r => ∃ h : r.len = 2 * s.width + 1,
      s.response = some ⟨s.width, engineAdd (reqMode (r.bits.cast h)) (reqA (r.bits.cast h)) (reqB (r.bits.cast h))⟩

/-- The flag combinations `(C, Z, S, O)` that rule R54 tabulates for a mode and a width of at least 1. -/
def flagTuples (mode : Mode) (W : Nat) : List (Bool × Bool × Bool × Bool) :=
  match mode, W with
  | .unsigned, 1 => [(false, false, true, false), (false, true, false, false), (true, true, false, false)]
  | .unsigned, _ =>
    [(false, false, false, false), (false, false, true, false), (false, true, false, false),
     (true, false, false, false), (true, false, true, false), (true, true, false, false)]
  | .signed, 1 => [(false, false, true, false), (false, true, false, false), (true, true, false, true)]
  | .signed, 2 =>
    [(false, false, false, false), (false, false, true, false), (false, false, true, true), (false, true, false, false),
     (true, false, false, true), (true, false, true, false), (true, true, false, false), (true, true, false, true)]
  | .signed, _ =>
    [(false, false, false, false), (false, false, true, false), (false, false, true, true), (false, true, false, false),
     (true, false, false, false), (true, false, false, true), (true, false, true, false), (true, true, false, false),
     (true, true, false, true)]

end Sys2Proof.Machine
end

