-- ==== Sys2Proof/Certificates/Slice0/Obligations.lean ====
section
/-! DEFINITION. The statements for the provers, from the numbered rules of spec/. `W` is any positive width unless a
statement says otherwise; `c` is the carry chain `carryInto`. -/

open Sys2Proof Sys2Proof.Machine

/-! ## Encodings -/

/-- Rules R33, R34, R37: words of the opcode table written out from their encoding. The first eight are at the table's
width 8; 0x20000 has a bit above the request word (log 10). -/
def Obligations.TableWordsDecodeToTheirInvocations : Prop :=
  decodeTableWord 24 0x0C864 = some (.addu 8 200 100) ∧
  decodeTableWord 24 0x16432 = some (.adds 8 100 50) ∧
  decodeTableWord 24 0x1FF01 = some (.adds 8 255 1) ∧
  decodeTableWord 24 0x00000 = some (.addu 8 0 0) ∧
  decodeTableWord 24 0x10000 = some (.adds 8 0 0) ∧
  decodeTableWord 24 0x0FFFF = some (.addu 8 255 255) ∧
  decodeTableWord 24 0x180FF = some (.adds 8 128 255) ∧
  decodeTableWord 24 0x20000 = none ∧
  decodeWord 1 ⟨3, 0x6⟩ = .ok (.adds 1 1 0) ∧
  decodeWord 16 ⟨33, 0x012344321⟩ = .ok (.addu 16 0x1234 0x4321)

/-- Rule R33: the mode is one bit, Unsigned = 0 and Signed = 1, and the bit gives the mode back. -/
def Obligations.ModeIsOneBit : Prop :=
  Mode.unsigned.toBit = false ∧ Mode.signed.toBit = true ∧
  Mode.ofBit false = .unsigned ∧ Mode.ofBit true = .signed

/-- Rule R34: `REQ = mode || a || b`, field by field, as a number, and the two worked examples. -/
def Obligations.RequestWordPacksModeAndOperands : Prop :=
  (∀ (W : Nat) (mode : Mode) (a b : Operand W),
    encodeWord (instrOf W mode a b) = ⟨2 * W + 1, packReq mode a b⟩ ∧
    (packReq mode a b).getLsbD (2 * W) = mode.toBit ∧
    (∀ i < W, (packReq mode a b).getLsbD (W + i) = a.getLsbD i ∧ (packReq mode a b).getLsbD i = b.getLsbD i) ∧
    (packReq mode a b).toNat = mode.toBit.toNat * 2 ^ (2 * W) + val a * 2 ^ W + val b) ∧
  packReq (W := 8) .unsigned 200 100 = 0x0C864 ∧ packReq (W := 8) .signed 100 50 = 0x16432

/-- Rule R37: a request word selects its row by the bit at `2W` alone (mask `2^(2W)`, match 0 for ADDU and `2^(2W)`
for ADDS), its operands are the two fields below that bit, and no request word is turned away. -/
def Obligations.RequestWordSelectsItsRowByTheModeBit : Prop :=
  ∀ (W : Nat) (req : BitVec (2 * W + 1)), 1 ≤ W →
    (req.toNat &&& 2 ^ (2 * W) = 0 ∧
      decodeWord W ⟨2 * W + 1, req⟩ = .ok (.addu W (bitsOf W (req.toNat / 2 ^ W)) (bitsOf W req.toNat))) ∨
    (req.toNat &&& 2 ^ (2 * W) = 2 ^ (2 * W) ∧
      decodeWord W ⟨2 * W + 1, req⟩ = .ok (.adds W (bitsOf W (req.toNat / 2 ^ W)) (bitsOf W req.toNat)))

/-- Every invocation of a session is read back from its request word, with every operand value. -/
def Obligations.EncodedInvocationDecodesToItself : Prop :=
  ∀ (W : Nat) (i : Instr), i.wf W = true → decodeWord W (encodeWord i) = .ok i

/-- Rule R38: each request word is the encoding of exactly one well-formed invocation. -/
def Obligations.EveryRequestWordIsExactlyOneInvocation : Prop :=
  ∀ (W : Nat) (req : BitVec (2 * W + 1)), 1 ≤ W →
    ∃ i : Instr, i.wf W = true ∧ decodeWord W ⟨2 * W + 1, req⟩ = .ok i ∧
      ∀ j : Instr, encodeWord j = ⟨2 * W + 1, req⟩ ↔ j = i

/-- Rule R35: `RSP = O || S || Z || C || result` bit by bit; `C || result` is the exact sum; what is not in the word is
read from it or from the mode; the two worked examples. -/
def Obligations.ResponseWordPacksFlagsAboveTheResult : Prop :=
  (∀ (W : Nat) (mode : Mode) (a b : Operand W), 1 ≤ W →
    let r := engineAdd mode a b
    r.rspWord.getLsbD (W + 3) = r.overflow ∧ r.rspWord.getLsbD (W + 2) = r.sign ∧
    r.rspWord.getLsbD (W + 1) = r.zero ∧ r.rspWord.getLsbD W = r.carry ∧
    (∀ i < W, r.rspWord.getLsbD i = r.resultBits.getLsbD i) ∧
    r.rspWord.toNat % 2 ^ (W + 1) = val a + val b ∧
    r.unsignedValue = r.rspWord.toNat % 2 ^ W ∧
    r.signedValue = (if mode = .signed then some (sval (bitsOf W r.rspWord.toNat)) else none) ∧
    r.outPorts.signedValid = mode.toBit) ∧
  (engineAdd (W := 8) .unsigned 200 100).rspWord = 0x12C ∧ (engineAdd (W := 8) .signed 100 50).rspWord = 0xC96

/-- A host that knows the mode it asked for reads the whole Result back from the response word. -/
def Obligations.ResponseWordReadsBackToItsResult : Prop :=
  ∀ (W : Nat) (mode : Mode) (a b : Operand W), readRsp mode (engineAdd mode a b).rspWord = engineAdd mode a b

/-- Rule R40's written form (its exact spacing is log 12): the text printed for an invocation denotes it. -/
def Obligations.WrittenInvocationParsesToItself : Prop :=
  ∀ (W : Nat) (i : Instr), i.wf W = true → parseInstr W (printInstr i) = some i

/-! ## Steps, refusals, the session -/

/-- A step runs the decoded invocation, and adds nothing around it; with nothing presented it only leaves the outputs
empty (log 4). -/
def Obligations.StepRunsThePresentedInvocation : Prop :=
  ∀ s : State,
    (∀ r i, s.request = some r → decodeWord s.width r = .ok i → step s = exec i s) ∧
    (s.request = none → step s = .next { s with response := none })

/-- A step answers a next state exactly where nothing is presented, or the width is legal and the word has the request
length; it refuses exactly elsewhere, by the name of what is wrong and by no other (entries U2, U5; logs 4, 7, 8). -/
def Obligations.StepIsRefusedExactlyWhereNoRequestWordStands : Prop :=
  ∀ s : State,
    ((∃ t, step s = .next t) ↔ (∀ r, s.request = some r → 1 ≤ s.width ∧ r.len = 2 * s.width + 1)) ∧
    ∀ e, step s = .refused e ↔
      (e = .zeroWidth ∧ s.request ≠ none ∧ ¬ 1 ≤ s.width) ∨
      (e = .requestLength ∧ 1 ≤ s.width ∧ ∃ r, s.request = some r ∧ r.len ≠ 2 * s.width + 1)

/-- An invocation is refused exactly where the width is not positive or its operands are not of the session's width,
by the name of what is wrong and by no other (entries U1, U3, U5; log 8). -/
def Obligations.ExecIsRefusedExactlyOnAWrongWidth : Prop :=
  ∀ (i : Instr) (s : State) (e : Refusal), exec i s = .refused e ↔
    (e = .zeroWidth ∧ ¬ 1 ≤ s.width) ∨ (e = .operandWidth ∧ 1 ≤ s.width ∧ i.width ≠ s.width)

/-- Rules R51, R72: an invocation completes exactly where it is well formed; an invocation or a step that does not
complete is refused, never a fault. -/
def Obligations.EveryWellFormedInvocationCompletes : Prop :=
  ∀ (i : Instr) (s : State),
    ((∃ t, exec i s = .next t) ↔ i.wf s.width = true) ∧
    ((∃ t, exec i s = .next t) ∨ ∃ r, exec i s = .refused r) ∧ ((∃ t, step s = .next t) ∨ ∃ r, step s = .refused r)

/-- The frame of ADDU and ADDS: only the Result handed out changes; the width and the word on the inputs stay. There
is no register, no memory and no other state (rules R10 to R22). -/
def Obligations.AnInvocationChangesOnlyTheResult : Prop :=
  ∀ (i : Instr) (s t : State), exec i s = .next t → t = { s with response := t.response } ∧ t.response ≠ none

/-- A step never writes the width (rules R11, R82) or the inputs (rule R12). -/
def Obligations.AStepWritesNeitherTheWidthNorTheInputs : Prop :=
  ∀ s t : State, step s = .next t → t.width = s.width ∧ t.request = s.request

/-- Rules R5, R81, R82: the machine before the first invocation has the default width, nothing presented and no Result
(the empty inputs and outputs are the model's reading, log 5). -/
def Obligations.ResetHasDefaultWidthAndNoInvocation : Prop :=
  State.reset = { width := 8, request := none, response := none }

/-- The session invariant holds at reset. -/
def Obligations.ResetMeetsTheInvariant : Prop := State.reset.inv = true

/-- The session invariant: the width stays legal, and the Result handed out has exactly the session's width (rule R17),
its Z, S and decimal values are those of its bits, O = 0 without a signed value, and O = 1 only where C and S differ
(rules R45, R46, R48 to R50, R54). Every step keeps it. -/
def Obligations.EveryStepKeepsTheInvariant : Prop :=
  ∀ s t : State, s.inv = true → step s = .next t → t.inv = true

/-- After any step the outputs are those of the word on the inputs, computed by `add` from the word's own fields
(rule R10), and evaluating again changes nothing (rules R27, R51). That they are empty where nothing is presented is
the model's choice (log 4). -/
def Obligations.EveryStepSettlesTheOutputs : Prop :=
  ∀ s t : State, step s = .next t → t.settled ∧ step t = .next t

/-- Rules R10, R22, R29: an earlier invocation has no influence on a later one. After any step on any word, a word
presented gives the same answer as if it had been presented at once. -/
def Obligations.NoEarlierInvocationInfluencesALaterOne : Prop :=
  ∀ (s t : State) (r q : RequestWord), step (s.present q) = .next t → step (t.present r) = step (s.present r)

/-- Two sessions that agree on the width and on the inputs answer alike, whatever Result each still shows. -/
def Obligations.AStepDependsOnlyOnWidthAndInputs : Prop :=
  ∀ s t : State, s.width = t.width → s.request = t.request → step s = step t

/-- Rules R10, R23: where input ports are driven, a step completes and the output ports are the combinational function
of the input ports; `signed_valid` equals the mode. -/
def Obligations.OutputPortsAreAFunctionOfInputPorts : Prop :=
  ∀ (s : State) (p : InPorts s.width) (hW : 1 ≤ s.width), s.inPorts = some p →
    ∃ r : Result s.width, step s = .next { s with response := some ⟨s.width, r⟩ } ∧
      r.outPorts = combinational hW p ∧ r.outPorts.signedValid = p.mode

/-- Rule R29: in a sequence of invocations each one answers as if it were made alone, whatever came before it.
That the host goes on after a refused word is the model's choice (log 7). -/
def Obligations.EveryInvocationOfASequenceAnswersAlone : Prop :=
  ∀ (s : State) (words : List RequestWord), runWords s words = words.map fun r => step (s.present r)

/-- A table word that decodes runs as the first invocation after reset (log 6). -/
def Obligations.TableWordRunsAsTheFirstInvocation : Prop :=
  ∀ (nbits w : Nat) (i : Instr), decodeTableWord nbits w = some i →
    step (State.reset.withFetchWord nbits w) = exec i (State.reset.withFetchWord nbits w)

/-! ## The addition -/

/-- Rule R55: ADDU completes, and its Result is the one its pseudocode computes from a carry chain `c`. -/
def Obligations.AdduCompletesAsItsPseudocodeSays : Prop :=
  ∀ (s : State) (a b : Operand s.width), 1 ≤ s.width →
    ∃ (c : Nat → Bool) (r : Result s.width),
      exec (.addu s.width a b) s = .next { s with response := some ⟨s.width, r⟩ } ∧
      c 0 = false ∧
      (∀ i < s.width, r.resultBits.getLsbD i = ((a.getLsbD i ^^ b.getLsbD i) ^^ c i) ∧
        c (i + 1) = ((a.getLsbD i && b.getLsbD i) || (a.getLsbD i && c i) || (b.getLsbD i && c i))) ∧
      r.carry = c s.width ∧ r.zero = decide (r.resultBits = 0#s.width) ∧
      r.sign = r.resultBits.getLsbD (s.width - 1) ∧ r.overflow = false ∧
      r.unsignedValue = r.resultBits.toNat ∧ r.signedValue = none ∧ r.outPorts.signedValid = false

/-- Rule R56: ADDS completes, and its Result is the one its pseudocode computes from a carry chain `c`. -/
def Obligations.AddsCompletesAsItsPseudocodeSays : Prop :=
  ∀ (s : State) (a b : Operand s.width), 1 ≤ s.width →
    ∃ (c : Nat → Bool) (r : Result s.width),
      exec (.adds s.width a b) s = .next { s with response := some ⟨s.width, r⟩ } ∧
      c 0 = false ∧
      (∀ i < s.width, r.resultBits.getLsbD i = ((a.getLsbD i ^^ b.getLsbD i) ^^ c i) ∧
        c (i + 1) = ((a.getLsbD i && b.getLsbD i) || (a.getLsbD i && c i) || (b.getLsbD i && c i))) ∧
      r.carry = c s.width ∧ r.zero = decide (r.resultBits = 0#s.width) ∧
      r.sign = r.resultBits.getLsbD (s.width - 1) ∧ r.overflow = (c (s.width - 1) ^^ c s.width) ∧
      r.unsignedValue = r.resultBits.toNat ∧
      r.signedValue = some (if r.resultBits.getLsbD (s.width - 1) = false then (r.resultBits.toNat : Int)
        else -(((~~~r.resultBits).toNat : Int) + 1)) ∧
      r.outPorts.signedValid = true

/-- ADDU's whole Result in integers alone, without the carry chain (rules R44 to R50, R53). -/
def Obligations.AdduResultInIntegers : Prop :=
  ∀ (s : State) (a b : Operand s.width), 1 ≤ s.width →
    exec (.addu s.width a b) s = .next { s with response := some ⟨s.width,
      { resultBits := bitsOf s.width (val a + val b)
        carry := decide (2 ^ s.width ≤ val a + val b)
        zero := decide ((val a + val b) % 2 ^ s.width = 0)
        sign := ((val a + val b) % 2 ^ s.width).testBit (s.width - 1)
        overflow := false
        unsignedValue := (val a + val b) % 2 ^ s.width
        signedValue := none }⟩ }

/-- ADDS's whole Result in integers alone: O says that the true signed sum does not fit, and the signed value is the
true sum brought back into range by one turn of `2^W` (rules R44 to R50, R53, R54). -/
def Obligations.AddsResultInIntegers : Prop :=
  ∀ (s : State) (a b : Operand s.width), 1 ≤ s.width →
    exec (.adds s.width a b) s = .next { s with response := some ⟨s.width,
      { resultBits := bitsOf s.width (val a + val b)
        carry := decide (2 ^ s.width ≤ val a + val b)
        zero := decide ((val a + val b) % 2 ^ s.width = 0)
        sign := ((val a + val b) % 2 ^ s.width).testBit (s.width - 1)
        overflow := decide (sval a + sval b < -2 ^ (s.width - 1) ∨ 2 ^ (s.width - 1) - 1 < sval a + sval b)
        unsignedValue := (val a + val b) % 2 ^ s.width
        signedValue := some (
          if sval a + sval b < -2 ^ (s.width - 1) then sval a + sval b + 2 ^ s.width
          else if 2 ^ (s.width - 1) - 1 < sval a + sval b then sval a + sval b - 2 ^ s.width
          else sval a + sval b) }⟩ }

/-- Rule R41: the chain starts at 0, each position is a full adder, and in every row of the truth table
`a + b + c = 2 * carry + sum`. -/
def Obligations.CarryChainIsFullAdders : Prop :=
  (∀ (W : Nat) (a b : Operand W), carryInto a b 0 = false ∧
    ∀ i < W, sumBit a b i = ((a.getLsbD i ^^ b.getLsbD i) ^^ carryInto a b i) ∧
      carryInto a b (i + 1) =
        ((a.getLsbD i && b.getLsbD i) || (a.getLsbD i && carryInto a b i) || (b.getLsbD i && carryInto a b i))) ∧
  ∀ p q c : Bool, p.toNat + q.toNat + c.toNat = 2 * (maj p q c).toNat + (fullSum p q c).toNat

/-- Rules R42, R43: the two carries at the MSB, also for `W = 1`, where the carry into the MSB is the initial carry and
so O = C in Signed mode. -/
def Obligations.CarriesAtTheMostSignificantBit : Prop :=
  (∀ (W : Nat) (a b : Operand W), 1 ≤ W →
    carryIntoMsb a b = carryInto a b (W - 1) ∧ carryOutOfMsb a b = carryInto a b W ∧
    carryOutOfMsb a b = maj (msb a) (msb b) (carryIntoMsb a b) ∧
    ∀ mode, (engineAdd mode a b).carry = carryOutOfMsb a b) ∧
  ∀ a b : Operand 1, carryIntoMsb a b = false ∧ (engineAdd .signed a b).overflow = (engineAdd .signed a b).carry ∧
    (engineAdd .signed a b).overflow = (a.getLsbD 0 && b.getLsbD 0)

/-- Rules R45, R46: Z looks at the result bits only, also where the sum is exactly `2^W`; S is the MSB and says that
the result is at least `2^(W-1)`; neither depends on the mode. -/
def Obligations.ZeroAndSignReadTheResultBits : Prop :=
  ∀ (W : Nat) (mode : Mode) (a b : Operand W), 1 ≤ W →
    let r := engineAdd mode a b
    (r.zero = true ↔ ∀ i < W, r.resultBits.getLsbD i = false) ∧ (r.zero = true ↔ val r.resultBits = 0) ∧
    (val a + val b = 2 ^ W → r.zero = true ∧ r.carry = true) ∧
    r.sign = r.resultBits.getLsbD (W - 1) ∧ (r.sign = true ↔ 2 ^ (W - 1) ≤ val r.resultBits) ∧
    ∀ mode' : Mode, (engineAdd mode' a b).zero = r.zero ∧ (engineAdd mode' a b).sign = r.sign

/-- Rules R47, R48: C is the carry out of the MSB in both modes and never a borrow; O is the XOR of the two carries in
Signed mode and 0 in Unsigned mode, also where that XOR is 1, and it is the one flag that depends on the mode. -/
def Obligations.CarryInBothModesOverflowOnlyInSigned : Prop :=
  (∀ (W : Nat) (a b : Operand W), 1 ≤ W →
    (∀ mode, (engineAdd mode a b).carry = carryInto a b W) ∧
    (engineAdd .unsigned a b).overflow = false ∧
    (engineAdd .signed a b).overflow = (carryInto a b (W - 1) ^^ carryInto a b W) ∧
    (∀ mode : Mode, (engineAdd mode a b).overflow = (mode.toBit && (carryInto a b (W - 1) ^^ carryInto a b W))) ∧
    (engineAdd .unsigned a b).carry = (engineAdd .signed a b).carry ∧
    (engineAdd .unsigned a b).zero = (engineAdd .signed a b).zero ∧
    (engineAdd .unsigned a b).sign = (engineAdd .signed a b).sign) ∧
  (∀ a b : Operand 1, (engineAdd .signed a b).overflow = (a.getLsbD 0 && b.getLsbD 0)) ∧
  (∀ mode, (engineAdd (W := 8) mode 50 206).carry = true) ∧
  carryInto (W := 8) 100 50 7 = true ∧ carryInto (W := 8) 100 50 8 = false ∧
  (engineAdd (W := 8) .unsigned 100 50).overflow = false ∧ (engineAdd (W := 8) .signed 100 50).overflow = true

/-- Rules R49, R50: the unsigned value is always reported; the signed value is absent in Unsigned mode, and in Signed
mode it is the two's-complement reading of the result bits, in range and equal to `unsigned_value - 2^W * S`. -/
def Obligations.UnsignedAlwaysReportedSignedOnlyInSigned : Prop :=
  (∀ (W : Nat) (a b : Operand W), 1 ≤ W →
    (∀ mode, (engineAdd mode a b).unsignedValue = val (sumBits a b) ∧ (engineAdd mode a b).unsignedValue ≤ 2 ^ W - 1) ∧
    (engineAdd .unsigned a b).signedValue = none ∧ (engineAdd .unsigned a b).outPorts.signedValid = false ∧
    (engineAdd .signed a b).outPorts.signedValid = true ∧
    ∃ v : Int, (engineAdd .signed a b).signedValue = some v ∧
      ((sumBits a b).getLsbD (W - 1) = false → v = val (sumBits a b)) ∧
      ((sumBits a b).getLsbD (W - 1) = true → v = -((val (~~~(sumBits a b)) : Int) + 1)) ∧
      -2 ^ (W - 1) ≤ v ∧ v ≤ 2 ^ (W - 1) - 1 ∧
      v = (engineAdd .signed a b).unsignedValue - 2 ^ W * (engineAdd .signed a b).sign.toNat) ∧
  sval (W := 8) 0x80 = -128

/-- Rule R8: `val` and `sval` as sums and cases of bits, their ranges, and `sval = val - 2^W * v[W-1]`. -/
def Obligations.ReadingsOfAVector : Prop :=
  ∀ (W : Nat) (v : Operand W), 1 ≤ W →
    val v = ((List.range W).map fun i => (v.getLsbD i).toNat * 2 ^ i).sum ∧ val v ≤ 2 ^ W - 1 ∧
    (v.getLsbD (W - 1) = false → sval v = val v) ∧
    (v.getLsbD (W - 1) = true → sval v = -((val (~~~v) : Int) + 1) ∧ (val v : Int) = 2 ^ W - |sval v|) ∧
    -2 ^ (W - 1) ≤ sval v ∧ sval v ≤ 2 ^ (W - 1) - 1 ∧
    sval v = val v - 2 ^ W * (v.getLsbD (W - 1)).toNat

/-- Rule R7: the string of a vector is MSB first, character `k` is bit `W-1-k`, and the string gives the vector
back. -/
def Obligations.StringOfAVectorIsMostSignificantFirst : Prop :=
  ∀ (W : Nat) (v : Operand W),
    (str v).length = W ∧ (∀ k < W, (str v)[k]? = some (if v.getLsbD (W - 1 - k) then '1' else '0')) ∧
    vectorOf W (str v) = v

/-- Rule R53, items 1 to 7, and its closing remark that one operation serves signed and unsigned operands. -/
def Obligations.IntegerLawsOfTheAddition : Prop :=
  ∀ (W : Nat) (mode : Mode) (a b : Operand W), 1 ≤ W →
    let r := engineAdd mode a b
    (∀ i ≤ W, carryInto a b i = true ↔ 2 ^ i ≤ val a % 2 ^ i + val b % 2 ^ i) ∧ carryInto a b 0 = false ∧
    val a + val b = r.carry.toNat * 2 ^ W + val r.resultBits ∧
    val r.resultBits = (val a + val b) % 2 ^ W ∧ r.resultBits = bitsOf W (val a + val b) ∧
    (r.carry = true ↔ 2 ^ W ≤ val a + val b) ∧
    (r.zero = true ↔ (val a + val b) % 2 ^ W = 0) ∧
    (r.zero = true ↔ (val a = 0 ∧ val b = 0) ∨ val a + val b = 2 ^ W) ∧
    (val a = 0 ∧ val b = 0 → r.carry = false) ∧ (val a + val b = 2 ^ W → r.carry = true) ∧
    r.sign = ((val a + val b) % 2 ^ W).testBit (W - 1) ∧
    r.unsignedValue = (val a + val b) % 2 ^ W ∧ (r.unsignedValue : Int) = val a + val b - r.carry.toNat * 2 ^ W ∧
    r.resultBits = BitVec.ofInt W (sval a + sval b)

/-- Rule R54, items 1 to 4 and their consequences: what O = 1 means for the true signed sum `T`. -/
def Obligations.SignedOverflowLaws : Prop :=
  ∀ (W : Nat) (a b : Operand W), 1 ≤ W →
    let r := engineAdd .signed a b
    let T := sval a + sval b
    (-2 ^ W ≤ T ∧ T ≤ 2 ^ W - 2) ∧
    (r.overflow = true ↔ (carryInto a b (W - 1) ^^ carryInto a b W) = true) ∧
    (r.overflow = true ↔ msb a = msb b ∧ msb r.resultBits ≠ msb a) ∧
    (r.overflow = true ↔ T < -2 ^ (W - 1) ∨ 2 ^ (W - 1) - 1 < T) ∧
    (r.overflow = true ↔ (((r.carry ^^ r.sign) ^^ msb a) ^^ msb b) = true) ∧
    (r.overflow = false → r.signedValue = some T) ∧
    (r.overflow = true → msb a = false → msb b = false →
      r.carry = false ∧ r.sign = true ∧ r.signedValue = some (T - 2 ^ W)) ∧
    (r.overflow = true → msb a = true → msb b = true →
      r.carry = true ∧ r.sign = false ∧ r.signedValue = some (T + 2 ^ W)) ∧
    (msb a ≠ msb b → r.overflow = false)

/-- Rule R54's table: the flag combinations that occur are exactly those listed for the mode and the width, at every
width (the spec found the sets by enumeration at some widths; that they hold at all of them is this statement's). -/
def Obligations.FlagCombinationsThatOccur : Prop :=
  ∀ (W : Nat) (mode : Mode) (c z s o : Bool), 1 ≤ W →
    ((c, z, s, o) ∈ flagTuples mode W ↔
      ∃ a b : Operand W, (engineAdd mode a b).carry = c ∧ (engineAdd mode a b).zero = z ∧
        (engineAdd mode a b).sign = s ∧ (engineAdd mode a b).overflow = o)

/-- Rule R57: commutativity, zero operand, mode independence, purity, negation pairs. -/
def Obligations.AlgebraicLawsOfTheInvocation : Prop :=
  ∀ (W : Nat) (mode : Mode) (a b : Operand W), 1 ≤ W →
    engineAdd mode a b = engineAdd mode b a ∧
    ((engineAdd mode a 0#W).resultBits = a ∧ (engineAdd mode a 0#W).carry = false ∧
      (engineAdd mode a 0#W).overflow = false ∧ ((engineAdd mode a 0#W).zero = true ↔ a = 0#W) ∧
      (engineAdd mode a 0#W).sign = a.getLsbD (W - 1) ∧ ∀ i ≤ W, carryInto a 0#W i = false) ∧
    ({ engineAdd .signed a b with overflow := false, signedValue := none } = engineAdd .unsigned a b) ∧
    (∀ a' b' mode', a = a' → b = b' → mode = mode' → engineAdd mode a b = engineAdd mode' a' b') ∧
    (val a + val b = 2 ^ W →
      (engineAdd mode a b).resultBits = 0#W ∧ (engineAdd mode a b).zero = true ∧
      (engineAdd mode a b).carry = true ∧ (engineAdd mode a b).sign = false ∧
      ((engineAdd .signed a b).overflow = true ↔ val a = 2 ^ (W - 1) ∧ val b = 2 ^ (W - 1)))

/-- Rule R71: adding the pattern of `-y` subtracts, and C then says `x >= y`, the opposite sense to a borrow; with the
scenario the rule quotes. -/
def Obligations.HostSubtractionSetsCarryWhereNoBorrow : Prop :=
  (∀ (W : Nat) (mode : Mode) (x y : Operand W), 1 ≤ W → val y ≠ 0 →
    val (negPattern y) = 2 ^ W - val y ∧
    (engineAdd mode x (negPattern y)).resultBits = x - y ∧
    ((engineAdd mode x (negPattern y)).carry = true ↔ val y ≤ val x)) ∧
  negPattern (W := 8) 50 = 0b11001110 ∧
  engineAdd (W := 8) .signed 0b00110010 0b11001110 =
    { resultBits := 0, carry := true, zero := true, sign := false, overflow := false, unsignedValue := 0,
      signedValue := some 0 }

/-- The corner cases of rules R55 and R56 that wrap: the largest sum, the most negative number added to itself, and a
sum beyond `2^W`. The largest sum has Z = 0 and S = 1 from `W = 2` on (at `W = 1` it is 0; vector A4). -/
def Obligations.CornerCasesOfTheTwoInstructions : Prop :=
  ∀ (W : Nat) (mode : Mode) (a b : Operand W), 1 ≤ W →
    let r := engineAdd mode a b
    (2 ^ W < val a + val b → val r.resultBits = val a + val b - 2 ^ W ∧ r.carry = true ∧ r.zero = false) ∧
    (val a = 2 ^ W - 1 → val b = 2 ^ W - 1 → val r.resultBits = 2 ^ W - 2 ∧ r.carry = true ∧
      (2 ≤ W → r.zero = false ∧ r.sign = true)) ∧
    (val a = 2 ^ (W - 1) → val b = 2 ^ (W - 1) → val r.resultBits = 0 ∧ r.carry = true ∧ r.zero = true ∧
      r.sign = false ∧ r.overflow = mode.toBit ∧ (engineAdd .signed a b).signedValue = some 0)

/-! ## The Normalizer and the host -/

/-- Rule R59: trimming takes off exactly the leading and the trailing whitespace, all later checks see the trimmed
text, a text that trims to nothing is EmptyOperand, and whitespace inside is an invalid character. -/
def Obligations.TrimmingTakesOffOuterWhitespaceOnly : Prop :=
  (∀ raw : Text, ∃ pre post : Text, raw = pre ++ trim raw ++ post ∧ pre.all isWhitespace = true ∧
    post.all isWhitespace = true ∧ (∀ c, (trim raw).head? = some c → isWhitespace c = false) ∧
    (∀ c, (trim raw).getLast? = some c → isWhitespace c = false)) ∧
  (∀ (W : Nat) (hW : 1 ≤ W) (kind : RepresentationKind) (raw pre post : Text),
    pre.all isWhitespace = true → post.all isWhitespace = true →
    normalizeText (pre ++ raw ++ post) kind W hW = normalizeText raw kind W hW) ∧
  (∀ (W : Nat) (hW : 1 ≤ W) (kind : RepresentationKind) (raw : Text),
    normalizeText raw kind W hW = normalizeText (trim raw) kind W hW ∧
    (trim raw = [] → normalizeText raw kind W hW = .error .emptyOperand) ∧
    ((∃ c ∈ trim raw, isWhitespace c = true) → normalizeText raw kind W hW = .error .invalidNumeral)) ∧
  ∀ c : Char, isWhitespace c = true ↔ c = ' ' ∨ c = '\t' ∨ c = '\n' ∨ c = '\x0b' ∨ c = '\x0c' ∨ c = '\r'

/-- Rules R62, R73: each error kind is reported exactly on its own cause, in the order empty, character, size; a call
reports at most one; the codes are 1 to 4. -/
def Obligations.EachErrorHasItsExactCause : Prop :=
  (∀ (W : Nat) (hW : 1 ≤ W) (raw : Text),
    let t := trim raw
    (∀ kind, normalizeText raw kind W hW = .error .emptyOperand ↔ t.length = 0) ∧
    (normalizeText raw .binary W hW = .error .invalidNumeral ↔ t.length ≠ 0 ∧ ∃ c ∈ t, c ≠ '0' ∧ c ≠ '1') ∧
    (normalizeText raw .decimal W hW = .error .invalidNumeral ↔ t.length ≠ 0 ∧ ∃ c ∈ t, c.toNat < 48 ∨ 57 < c.toNat) ∧
    (normalizeText raw .decimal W hW = .error .outOfRange ↔
      t.length ≠ 0 ∧ (∀ c ∈ t, 48 ≤ c.toNat ∧ c.toNat ≤ 57) ∧ 2 ^ W - 1 < numeralValue 10 t) ∧
    (normalizeText raw .binary W hW = .error .tooLong ↔ (∀ c ∈ t, c = '0' ∨ c = '1') ∧ W < t.length) ∧
    normalizeText raw .binary W hW ≠ .error .outOfRange ∧ normalizeText raw .decimal W hW ≠ .error .tooLong) ∧
  errorCode .emptyOperand = 1 ∧ errorCode .invalidNumeral = 2 ∧ errorCode .outOfRange = 3 ∧ errorCode .tooLong = 4

/-- Rule R60: a binary text normalizes exactly where it is non-empty, all `'0'`/`'1'` and no longer than `W`; the
operand's string is the text padded on the left with zeros, and its value the base-2 value of the text. -/
def Obligations.BinaryTextNormalizesToItsPaddedPattern : Prop :=
  ∀ (W : Nat) (hW : 1 ≤ W) (raw : Text) (v : Operand W),
    let t := trim raw
    (normalizeText raw .binary W hW = .ok v ↔
      t.length ≠ 0 ∧ (∀ c ∈ t, c = '0' ∨ c = '1') ∧ t.length ≤ W ∧ str v = List.replicate (W - t.length) '0' ++ t) ∧
    (normalizeText raw .binary W hW = .ok v → val v = numeralValue 2 t)

/-- Rule R61: a decimal text normalizes exactly where it is non-empty, all digits and at most `2^W - 1`; the operand's
value is the integer the text denotes in base 10, first character most significant. -/
def Obligations.DecimalTextNormalizesToItsValue : Prop :=
  (∀ (W : Nat) (hW : 1 ≤ W) (raw : Text) (v : Operand W),
    let t := trim raw
    (normalizeText raw .decimal W hW = .ok v ↔
      t.length ≠ 0 ∧ (∀ c ∈ t, 48 ≤ c.toNat ∧ c.toNat ≤ 57) ∧ val v = numeralValue 10 t)) ∧
  ∀ t : Text, numeralValue 10 t =
    ((List.range t.length).map fun j => digitValue (t.getD j '0') * 10 ^ (t.length - 1 - j)).sum

/-- Rule R63: every vector is the Normalizer's output for its own string. -/
def Obligations.EveryVectorIsTheNormalizersOutput : Prop :=
  ∀ (W : Nat) (hW : 1 ≤ W) (v : Operand W), normalizeText (str v) .binary W hW = .ok v

/-- Rule R63's round trip in decimal: the numeral of a vector's value, with any leading zeros (decision D19),
normalizes to the vector. -/
def Obligations.DecimalNumeralRoundTrips : Prop :=
  ∀ (W k : Nat) (hW : 1 ≤ W) (v : Operand W),
    normalizeText (List.replicate k '0' ++ Nat.toDigits 10 (val v)) .decimal W hW = .ok v

/-- Rules R65, R66, R75: the host adds exactly where both texts normalize, each by its own kind; otherwise it holds the
error kind of each operand that failed. -/
def Obligations.HostAddsOnlyIfBothTextsNormalize : Prop :=
  ∀ (W : Nat) (hW : 1 ≤ W) (x y : TextOperand) (mode : Mode),
    (∀ r, addTexts W hW x y mode = .added r ↔
      ∃ a b, normalizeText x.raw x.kind W hW = .ok a ∧ normalizeText y.raw y.kind W hW = .ok b ∧ r = engineAdd mode a b) ∧
    (∀ e f, addTexts W hW x y mode = .notInvoked e f ↔
      (e, f) ≠ (none, none) ∧ e = errorOf (normalizeText x.raw x.kind W hW) ∧ f = errorOf (normalizeText y.raw y.kind W hW))

/-- Rules R2, R66: two texts that normalize are presented and the next step hands out the Result of their sum; if
either fails nothing is presented and the host holds each failed operand's error kind; a session of width 0 is refused
(rule R5, entry U5; log 8). -/
def Obligations.EnteredTextsReachTheirResult : Prop :=
  ∀ (s : State) (x y : TextOperand) (mode : Mode),
    (∀ hW : 1 ≤ s.width,
      (∀ a b, normalizeText x.raw x.kind s.width hW = .ok a → normalizeText y.raw y.kind s.width hW = .ok b →
        ∃ t, s.presentTexts x y mode = .presented t ∧
          step t = .next { t with response := some ⟨s.width, engineAdd mode a b⟩ }) ∧
      ((∃ e, normalizeText x.raw x.kind s.width hW = .error e ∨ normalizeText y.raw y.kind s.width hW = .error e) →
        s.presentTexts x y mode = .notInvoked (errorOf (normalizeText x.raw x.kind s.width hW))
          (errorOf (normalizeText y.raw y.kind s.width hW)))) ∧
    (¬ 1 ≤ s.width → s.presentTexts x y mode = .refused .zeroWidth)
end

