-- ==== Sys2Proof/Laws/Decode.lean ====
section
/-! SUPPORT. What the decoder and the encoder do, said once each. -/

namespace Sys2Proof

@[simp] theorem legalWidth_iff (W : Nat) : legalWidth W = true ↔ 1 ≤ W := decide_eq_true_iff

@[simp] theorem ofBit_toBit (m : Mode) : Mode.ofBit m.toBit = m := by cases m <;> rfl
@[simp] theorem toBit_ofBit (b : Bool) : (Mode.ofBit b).toBit = b := by cases b <;> rfl

@[simp] theorem instrOf_width (W : Nat) (m : Mode) (a b : Operand W) : (instrOf W m a b).width = W := by
  cases m <;> rfl
@[simp] theorem instrOf_mode (W : Nat) (m : Mode) (a b : Operand W) : (instrOf W m a b).mode = m := by
  cases m <;> rfl

/-- Every invocation is `add` in its own mode on its own operands. -/
theorem instrOf_fields (i : Instr) : instrOf i.width i.mode i.operandA i.operandB = i := by
  cases i <;> rfl

theorem wf_iff (W : Nat) (i : Instr) : i.wf W = true ↔ 1 ≤ W ∧ i.width = W := by
  simp [Instr.wf]

/-- A well-formed invocation is `add` on two operands of the session's width. -/
theorem wf_cases {W : Nat} {i : Instr} (h : i.wf W = true) : 1 ≤ W ∧ ∃ m a b, i = instrOf W m a b := by
  obtain ⟨hW, rfl⟩ := (wf_iff W i).1 h
  exact ⟨hW, _, _, _, (instrOf_fields i).symm⟩

/-- The request word of an invocation is the packing of its fields. -/
theorem encodeWord_instrOf (W : Nat) (m : Mode) (a b : Operand W) :
    encodeWord (instrOf W m a b) = ⟨2 * W + 1, packReq m a b⟩ := by
  cases m <;> rfl

/-- The decoder accepts exactly the words of the request length in a session of legal width. -/
theorem decodeWord_ok_iff (W : Nat) (r : RequestWord) (i : Instr) :
    decodeWord W r = .ok i ↔ 1 ≤ W ∧ ∃ h : r.len = 2 * W + 1, i = decodeReq W (r.bits.cast h) := by
  unfold decodeWord
  split
  · next hW =>
    split
    · next h => simp only [Except.ok.injEq, (legalWidth_iff W).1 hW, true_and]; exact ⟨fun e => ⟨h, e.symm⟩, fun ⟨_, e⟩ => e.symm⟩
    · next h => simp [h]
  · next hW => simp only [legalWidth_iff] at hW; simp [hW]

/-- The two names under which the decoder turns a word away. -/
theorem decodeWord_error_iff (W : Nat) (r : RequestWord) (e : DecodeError) :
    decodeWord W r = .error e ↔
      (¬ 1 ≤ W ∧ e = .zeroWidth) ∨ (1 ≤ W ∧ r.len ≠ 2 * W + 1 ∧ e = .requestLength) := by
  unfold decodeWord
  split
  · next hW =>
    have := (legalWidth_iff W).1 hW
    split
    · next h => simp [h, this]
    · next h => simp [h, this, eq_comm]
  · next hW => simp only [legalWidth_iff] at hW; simp [hW, eq_comm]

@[simp] theorem decodeReq_width (W : Nat) (req : BitVec (2 * W + 1)) : (decodeReq W req).width = W := by
  simp [decodeReq]

/-- What the decoder accepts is well formed. -/
theorem decodeWord_wf {W : Nat} {r : RequestWord} {i : Instr} (h : decodeWord W r = .ok i) : i.wf W = true := by
  obtain ⟨hW, _, rfl⟩ := (decodeWord_ok_iff W r i).1 h
  simp [wf_iff, hW]

end Sys2Proof
end

