-- ==== Sys2Proof/Laws/Ops.lean ====
section
/-! SUPPORT. The carry chain, the collected bits and the readings, one lemma for each. -/

namespace Sys2Proof.Machine

@[simp] theorem carryInto_zero {W : Nat} (a b : Operand W) : carryInto a b 0 = false := rfl

theorem carryInto_succ {W : Nat} (a b : Operand W) (i : Nat) :
    carryInto a b (i + 1) = maj (a.getLsbD i) (b.getLsbD i) (carryInto a b i) := rfl

theorem maj_swap (p q r : Bool) : maj p q r = maj q p r := by revert p q r; decide

theorem fullSum_swap (p q r : Bool) : fullSum p q r = fullSum q p r := by revert p q r; decide

theorem carryInto_swap {W : Nat} (a b : Operand W) (i : Nat) : carryInto a b i = carryInto b a i := by
  induction i with
  | zero => rfl
  | succ i ih => rw [carryInto_succ, carryInto_succ, ih, maj_swap]

/-- Bit `i` of a collected vector is `f i`. -/
theorem collect_getLsbD (f : Nat → Bool) (n i : Nat) : (collect f n).getLsbD i = (decide (i < n) && f i) := by
  induction n with
  | zero => simp [collect]
  | succ n ih =>
    rw [collect, BitVec.getLsbD_cons, ih]
    by_cases h : i = n
    · simp [h]
    · have : i < n + 1 ↔ i < n := by omega
      simp [h, this]

/-- The result bits are the sum bits (rule R44). -/
theorem sumBits_getLsbD {W : Nat} (a b : Operand W) (i : Nat) :
    (sumBits a b).getLsbD i = (decide (i < W) && sumBit a b i) := collect_getLsbD _ _ _

@[simp] theorem signedReading_unsigned {W : Nat} (r : Operand W) : signedReading .unsigned r = none := rfl
@[simp] theorem signedReading_signed {W : Nat} (r : Operand W) : signedReading .signed r = some (sval r) := rfl

theorem val_lt {W : Nat} (v : Operand W) : val v < 2 ^ W := v.isLt

@[simp] theorem str_length {W : Nat} (v : Operand W) : (str v).length = W := by simp [str]

@[simp] theorem overflowFlag_unsigned {W : Nat} (a b : Operand W) : overflowFlag .unsigned a b = false := rfl

/-- The carry chain is the library's carry of a bit-vector addition with carry-in 0. -/
theorem carryInto_eq_carry {W : Nat} (a b : Operand W) (i : Nat) : carryInto a b i = BitVec.carry i a b false := by
  induction i with
  | zero => simp [BitVec.carry_zero]
  | succ i ih =>
    rw [carryInto_succ, BitVec.carry_succ, ih]
    generalize a.getLsbD i = p, b.getLsbD i = q, BitVec.carry i a b false = r
    revert p q r
    decide

/-- The sum bits are the library's addition. -/
theorem sumBits_eq_add {W : Nat} (a b : Operand W) : sumBits a b = a + b := by
  refine BitVec.eq_of_getLsbD_eq fun i hi => ?_
  rw [sumBits_getLsbD, BitVec.getLsbD_add hi, sumBit, fullSum, carryInto_eq_carry]
  simp [hi]

theorem msb_eq_msb {W : Nat} (v : Operand W) : msb v = v.msb := (BitVec.msb_eq_getLsbD_last v).symm

/-- The signed reading is the library's. -/
theorem sval_eq_toInt {W : Nat} (v : Operand W) : sval v = v.toInt := by
  rw [sval, msb_eq_msb, BitVec.toInt_eq_msb_cond]
  split
  · have := v.isLt
    simp only [val, BitVec.toNat_not]
    have h1 : 2 ^ W - 1 - v.toNat + 1 = 2 ^ W - v.toNat := by omega
    have h2 : ((2 ^ W - v.toNat : Nat) : Int) = (2 ^ W : Nat) - v.toNat := by omega
    rw [← Nat.cast_add_one, h1, h2]
    ring
  · rfl

end Sys2Proof.Machine
end

