-- ==== Sys2Proof/Laws/State.lean ====
section
/-! SUPPORT. One lemma per field per update of the state, and the fields at reset. -/

namespace Sys2Proof.Machine

@[simp] theorem present_width (s : State) (r : RequestWord) : (s.present r).width = s.width := rfl
@[simp] theorem present_request (s : State) (r : RequestWord) : (s.present r).request = some r := rfl
@[simp] theorem present_response (s : State) (r : RequestWord) : (s.present r).response = s.response := rfl

@[simp] theorem respond_width {W : Nat} (s : State) (r : Result W) : (s.respond r).width = s.width := rfl
@[simp] theorem respond_request {W : Nat} (s : State) (r : Result W) : (s.respond r).request = s.request := rfl
@[simp] theorem respond_response {W : Nat} (s : State) (r : Result W) : (s.respond r).response = some ⟨W, r⟩ := rfl
@[simp] theorem respond_respond {V W : Nat} (s : State) (q : Result V) (r : Result W) :
    (s.respond q).respond r = s.respond r := rfl

@[simp] theorem idle_width (s : State) : s.idle.width = s.width := rfl
@[simp] theorem idle_request (s : State) : s.idle.request = s.request := rfl
@[simp] theorem idle_response (s : State) : s.idle.response = none := rfl

@[simp] theorem withFetchWord_width (s : State) (nbits w : Nat) : (s.withFetchWord nbits w).width = s.width := rfl
@[simp] theorem withFetchWord_request (s : State) (nbits w : Nat) :
    (s.withFetchWord nbits w).request = some (wordOfNat s.width nbits w) := rfl
@[simp] theorem withFetchWord_response (s : State) (nbits w : Nat) :
    (s.withFetchWord nbits w).response = s.response := rfl

@[simp] theorem reset_width : State.reset.width = Config.defaultWidth := rfl
@[simp] theorem reset_request : State.reset.request = none := rfl
@[simp] theorem reset_response : State.reset.response = none := rfl

end Sys2Proof.Machine
end

