-- ==== Sys2Proof/Laws/Adder.lean ====
section
/-! SUPPORT. What an invocation and a step can do, said once; the provers cite these and do not unfold. -/

namespace Sys2Proof.Machine

section
variable {W : Nat} (m : Mode) (a b : Operand W)

@[simp] theorem engineAdd_resultBits : (engineAdd m a b).resultBits = sumBits a b := rfl
@[simp] theorem engineAdd_carry : (engineAdd m a b).carry = carryInto a b W := rfl
@[simp] theorem engineAdd_zero : (engineAdd m a b).zero = zeroFlag (sumBits a b) := rfl
@[simp] theorem engineAdd_sign : (engineAdd m a b).sign = signFlag (sumBits a b) := rfl
@[simp] theorem engineAdd_overflow : (engineAdd m a b).overflow = overflowFlag m a b := rfl
@[simp] theorem engineAdd_unsignedValue : (engineAdd m a b).unsignedValue = val (sumBits a b) := rfl
@[simp] theorem engineAdd_signedValue : (engineAdd m a b).signedValue = signedReading m (sumBits a b) := rfl

end

/-- The arm of every instruction is one invocation on its own fields. -/
theorem exec_eq_invoke (i : Instr) (s : State) : exec i s = invoke i.mode i.width i.operandA i.operandB s := by
  cases i <;> rfl

/-- Everything an invocation can answer. -/
theorem invoke_cases (m : Mode) (w : Nat) (a b : Operand w) (s : State) :
    (1 ≤ s.width ∧ w = s.width ∧ invoke m w a b s = .next (s.respond (engineAdd m a b))) ∨
    (1 ≤ s.width ∧ w ≠ s.width ∧ invoke m w a b s = .refused .operandWidth) ∨
    (¬ 1 ≤ s.width ∧ invoke m w a b s = .refused .zeroWidth) := by
  by_cases hW : 1 ≤ s.width
  · by_cases hw : w = s.width
    · exact .inl ⟨hW, hw, by simp [invoke, hW, hw]⟩
    · exact .inr (.inl ⟨hW, hw, by simp [invoke, hW, hw]⟩)
  · exact .inr (.inr ⟨hW, by simp [invoke, hW]⟩)

/-- Where an instruction answers a next state, and which. -/
theorem exec_next_inv {i : Instr} {s t : State} (h : exec i s = .next t) :
    i.wf s.width = true ∧ t = s.respond (engineAdd i.mode i.operandA i.operandB) := by
  rw [exec_eq_invoke] at h
  rcases invoke_cases i.mode i.width i.operandA i.operandB s with ⟨hW, hw, e⟩ | ⟨_, _, e⟩ | ⟨_, e⟩ <;> rw [e] at h
  · exact ⟨(wf_iff _ _).2 ⟨hW, hw⟩, by injection h with h; exact h.symm⟩
  · cases h
  · cases h

/-- Everything a step that answers a next state can have done. -/
theorem step_next_cases {s t : State} (h : step s = .next t) :
    (s.request = none ∧ t = s.idle) ∨
    ∃ r i, s.request = some r ∧ decodeWord s.width r = .ok i ∧ exec i s = .next t := by
  unfold step fetchDecode at h
  cases hr : s.request with
  | none => rw [hr] at h; injection h with h; exact .inl ⟨rfl, h.symm⟩
  | some r =>
    rw [hr, Option.map_some] at h
    cases hd : decodeWord s.width r with
    | error e => rw [hd] at h; cases h
    | ok i => rw [hd] at h; exact .inr ⟨r, i, rfl, hd, h⟩

end Sys2Proof.Machine
end

