-- ==== Sys2Proof/Laws/Normalizer.lean ====
section
/-! SUPPORT. Everything each call of the Normalizer, and each entry of two operands, can answer. -/

namespace Sys2Proof.Machine

/-- What NORM.BIN answers on each kind of trimmed text. -/
theorem normBin_cases (W : Nat) (hW : 1 ≤ W) (raw : Text) :
    (trim raw = [] ∧ normBin W hW raw = .error .emptyOperand) ∨
    (trim raw ≠ [] ∧ (trim raw).all isBinaryDigit = false ∧ normBin W hW raw = .error .invalidNumeral) ∨
    (trim raw ≠ [] ∧ (trim raw).all isBinaryDigit = true ∧ W < (trim raw).length ∧ normBin W hW raw = .error .tooLong) ∨
    (trim raw ≠ [] ∧ (trim raw).all isBinaryDigit = true ∧ (trim raw).length ≤ W ∧
      normBin W hW raw = .ok (vectorOf W (List.replicate (W - (trim raw).length) '0' ++ trim raw))) := by
  by_cases h0 : trim raw = []
  · exact .inl ⟨h0, by simp [normBin, h0]⟩
  · cases h1 : (trim raw).all isBinaryDigit with
    | false => exact .inr (.inl ⟨h0, rfl, by simp [normBin, h0, h1]⟩)
    | true =>
      by_cases h2 : W < (trim raw).length
      · exact .inr (.inr (.inl ⟨h0, rfl, h2, by simp [normBin, h0, h1, h2]⟩))
      · exact .inr (.inr (.inr ⟨h0, rfl, by omega, by simp [normBin, h0, h1, h2]⟩))

/-- What NORM.DEC answers on each kind of trimmed text. -/
theorem normDec_cases (W : Nat) (hW : 1 ≤ W) (raw : Text) :
    (trim raw = [] ∧ normDec W hW raw = .error .emptyOperand) ∨
    (trim raw ≠ [] ∧ (trim raw).all isDecimalDigit = false ∧ normDec W hW raw = .error .invalidNumeral) ∨
    (trim raw ≠ [] ∧ (trim raw).all isDecimalDigit = true ∧ 2 ^ W - 1 < numeralValue 10 (trim raw) ∧
      normDec W hW raw = .error .outOfRange) ∨
    (trim raw ≠ [] ∧ (trim raw).all isDecimalDigit = true ∧ numeralValue 10 (trim raw) ≤ 2 ^ W - 1 ∧
      normDec W hW raw = .ok (bitsOf W (numeralValue 10 (trim raw)))) := by
  by_cases h0 : trim raw = []
  · exact .inl ⟨h0, by simp [normDec, h0]⟩
  · cases h1 : (trim raw).all isDecimalDigit with
    | false => exact .inr (.inl ⟨h0, rfl, by simp [normDec, h0, h1]⟩)
    | true =>
      by_cases h2 : 2 ^ W - 1 < numeralValue 10 (trim raw)
      · exact .inr (.inr (.inl ⟨h0, rfl, h2, by simp [normDec, h0, h1, h2]⟩))
      · exact .inr (.inr (.inr ⟨h0, rfl, by omega, by simp [normDec, h0, h1, h2]⟩))

/-- Two operands are entered exactly where both texts normalize. -/
theorem enterOperands_ok_iff (W : Nat) (hW : 1 ≤ W) (x y : TextOperand) (a b : Operand W) :
    enterOperands W hW x y = .ok (a, b) ↔ normalizeText x.raw x.kind W hW = .ok a ∧ normalizeText y.raw y.kind W hW = .ok b := by
  unfold enterOperands
  split
  · next a' b' ha hb => rw [ha, hb]; simp
  · next ra rb h =>
    constructor
    · intro e; cases e
    · rintro ⟨ha, hb⟩; exact (h a b ha hb).elim

/-- Where entering fails, each operand's own error kind is kept. -/
theorem enterOperands_error_iff (W : Nat) (hW : 1 ≤ W) (x y : TextOperand) (e : Option NormalizationError × Option NormalizationError) :
    enterOperands W hW x y = .error e ↔
      e = (errorOf (normalizeText x.raw x.kind W hW), errorOf (normalizeText y.raw y.kind W hW)) ∧ e ≠ (none, none) := by
  unfold enterOperands
  cases normalizeText x.raw x.kind W hW <;> cases normalizeText y.raw y.kind W hW <;> simp [errorOf, eq_comm] <;> rintro rfl <;> simp

/-- Everything presenting two texts can answer. -/
theorem presentTexts_cases (s : State) (x y : TextOperand) (m : Mode) :
    (∃ hW : 1 ≤ s.width, ∃ a b, enterOperands s.width hW x y = .ok (a, b) ∧
      s.presentTexts x y m = .presented (s.present ⟨2 * s.width + 1, packReq m a b⟩)) ∨
    (∃ hW : 1 ≤ s.width, ∃ ea eb, enterOperands s.width hW x y = .error (ea, eb) ∧
      s.presentTexts x y m = .notInvoked ea eb) ∨
    (¬ 1 ≤ s.width ∧ s.presentTexts x y m = .refused .zeroWidth) := by
  by_cases hW : 1 ≤ s.width
  · cases h : enterOperands s.width hW x y with
    | ok p => exact .inl ⟨hW, p.1, p.2, h, by simp [State.presentTexts, hW, h]⟩
    | error e => exact .inr (.inl ⟨hW, e.1, e.2, h, by simp [State.presentTexts, hW, h]⟩)
  · exact .inr (.inr ⟨hW, by simp [State.presentTexts, hW]⟩)

end Sys2Proof.Machine
end

