-- ==== Sys2Proof/Laws/PerInstr.lean ====
section
/-! SUPPORT. A fact about every instruction as syntax, one lemma per constructor: the top bit of its request word is
its mode (rules R33, R34). -/

namespace Sys2Proof.Laws

/-- The mode field of a packed request word. -/
theorem packReq_mode_bit {W : Nat} (m : Mode) (a b : Operand W) :
    (packReq m a b).getLsbD (2 * W) = m.toBit := by
  simp only [packReq, BitVec.getLsbD_cast, BitVec.getLsbD_append]
  rcases Nat.eq_zero_or_pos W with rfl | hW
  · simp
  · have h1 : ¬ 2 * W < W := by omega
    have h2 : ¬ 2 * W - W < W := by omega
    have h3 : 2 * W - W - W = 0 := by omega
    simp [h1, h2, h3]

end Sys2Proof.Laws

namespace Sys2Proof.Laws.ModeBit

/-- The instruction's request word has its mode at bit `2W`. -/
def Statement (i : Instr) : Prop := (encode i).getLsbD (2 * i.width) = i.mode.toBit

theorem addu (width : Nat) (a b : Operand width) : Statement (.addu width a b) :=
  packReq_mode_bit .unsigned a b

theorem adds (width : Nat) (a b : Operand width) : Statement (.adds width a b) :=
  packReq_mode_bit .signed a b

end Sys2Proof.Laws.ModeBit
end

