-- ==== Sys2Proof/Tests/Slice0.lean ====
section
/-! SUPPORT. Tests of the model against the worked examples and tables of 95_test_vectors.md, the ill-formed terms that
the checks refuse, and one witness for the hypotheses of each statement. Every expected value is the spec's. -/

namespace Sys2Proof.Tests

open Sys2Proof.Machine

/-- The Result a step hands out. -/
def answer (o : Host.Outcome State Fault Refusal) : Option Response :=
  match o with
  | .next t => t.response
  | _ => none

/-- The name under which a step refuses. -/
def refusal (o : Host.Outcome State Fault Refusal) : Option Refusal :=
  match o with
  | .refused r => some r
  | _ => none

/-- A session of width `W` with a word of the request length on its inputs. -/
def session (W req : Nat) : State := { State.reset with width := W, request := some ⟨2 * W + 1, BitVec.ofNat _ req⟩ }

/-- The response word of the step of that session, as a number. -/
def rspOf (W req : Nat) : Option Nat := (answer (step (session W req))).map fun r => r.result.rspWord.toNat

/-- Every request word of a table gives its response word. -/
def rspTable (W : Nat) (rows : List (Nat × Nat)) : Bool := rows.all fun p => rspOf W p.1 == some p.2

/-! ## The smoke test of the checks -/

theorem test_wf_accepts : (Instr.addu 8 200 100).wf 8 = true := by decide
theorem test_wf_rejects_wrong_width : (Instr.adds 8 200 100).wf 16 = false := by decide
theorem test_wf_rejects_zero_width : (Instr.addu 0 0 0).wf 0 = false := by decide
theorem test_decode_rejects_short_word : decodeWord 8 ⟨16, 0⟩ = .error .requestLength := by decide
theorem test_decode_rejects_zero_width : decodeWord 0 ⟨1, 1⟩ = .error .zeroWidth := by decide
theorem test_exec_refuses_wrong_width : refusal (exec (.addu 4 1 1) State.reset) = some .operandWidth := by decide
theorem test_exec_refuses_zero_width :
    refusal (exec (.adds 0 0 0) { State.reset with width := 0 }) = some .zeroWidth := by decide
theorem test_step_refuses_long_word : refusal (step (State.reset.withFetchWord 24 0x20000)) = some .requestLength := by
  decide

/-! ## Decoding, each word written out from rules R34 and R37 -/

/-- Rule R34's first example: mode 0, a = 11001000, b = 01100100. -/
theorem test_decode_addu : decodeTableWord 24 0b0_11001000_01100100 = some (.addu 8 0b11001000 0b01100100) := by decide
/-- Rule R34's second example: mode 1, a = 01100100, b = 00110010. -/
theorem test_decode_adds : decodeTableWord 24 0b1_01100100_00110010 = some (.adds 8 0b01100100 0b00110010) := by decide
/-- Vectors F1 and F4, at `W = 4`. -/
theorem test_decode_width_four :
    decodeWord 4 ⟨9, 0b1_1111_0001⟩ = .ok (.adds 4 15 1) ∧ decodeWord 4 ⟨9, 0b0_1001_1001⟩ = .ok (.addu 4 9 9) := by
  decide
theorem test_encode_addu : encodeWord (.addu 8 200 100) = ⟨17, 0x0C864⟩ := by decide
theorem test_encode_adds : encodeWord (.adds 8 100 50) = ⟨17, 0x16432⟩ := by decide
theorem test_print : printInstr (.adds 4 15 1) = "ADDS 0b1111, 0b0001".toList := by decide
theorem test_parse :
    parseInstr 8 "ADDU 200, 0b01100100".toList = some (.addu 8 200 100) ∧ parseInstr 8 "ADDS 256, 1".toList = none ∧
    parseInstr 8 "ADDS 0b101, 1".toList = none ∧ parseInstr 8 "SUBS 1, 1".toList = none := by decide

/-- A table word runs as the first invocation after reset. -/
theorem test_first_after_reset :
    (answer (step (State.reset.withFetchWord 24 0x0C864))).map (·.result.rspWord.toNat) = some 0x12C ∧
    (answer (step (State.reset.withFetchWord 24 0x16432))).map (·.result.rspWord.toNat) = some 0xC96 := by decide

/-! ## One step: the rows of 95_test_vectors.md sections 1.1 and 2 -/

/-- E3, every field. -/
theorem test_addu_E3 : answer (step (session 8 0x0C864)) = some ⟨8,
    { resultBits := 0b00101100, carry := true, zero := false, sign := false, overflow := false, unsignedValue := 44,
      signedValue := none }⟩ := by decide

/-- E4, every field. -/
theorem test_adds_E4 : answer (step (session 8 0x16432)) = some ⟨8,
    { resultBits := 0b10010110, carry := false, zero := false, sign := true, overflow := true, unsignedValue := 150,
      signedValue := some (-106) }⟩ := by decide

/-- The ADDU rows at `W = 8`. -/
theorem test_addu_vectors : rspTable 8
  [(0x0FF01, 0x300), (0x0C864, 0x12C), (0x00000, 0x200), (0x0FF01, 0x300), (0x0FFFF, 0x5FE),
   (0x07F01, 0x480), (0x06432, 0x496), (0x08080, 0x300), (0x055AA, 0x4FF), (0x032CE, 0x300)] = true := by decide

/-- The ADDS rows at `W = 8`. -/
theorem test_adds_vectors : rspTable 8
  [(0x1FF01, 0x300), (0x16432, 0xC96), (0x132CE, 0x300), (0x10000, 0x200), (0x1FFFF, 0x5FE),
   (0x17F01, 0xC80), (0x16432, 0xC96), (0x18080, 0xB00), (0x17F7F, 0xCFE), (0x1807F, 0x4FF),
   (0x18000, 0x480), (0x101FF, 0x300), (0x181FF, 0x580), (0x14040, 0xC80), (0x1C0C0, 0x580),
   (0x180FF, 0x97F), (0x102FF, 0x101), (0x18081, 0x901), (0x10001, 0x001), (0x10080, 0x480),
   (0x1017F, 0xC80), (0x1C864, 0x12C), (0x13232, 0x064)] = true := by decide

/-- All invocations at `W = 1`. -/
theorem test_width_one : rspTable 1
  [(0x0, 0x04), (0x1, 0x09), (0x2, 0x09), (0x3, 0x06), (0x4, 0x04), (0x5, 0x09), (0x6, 0x09),
   (0x7, 0x16)] = true := by decide

/-- All invocations at `W = 2`. -/
theorem test_width_two : rspTable 2
  [(0x00, 0x08), (0x01, 0x01), (0x02, 0x12), (0x03, 0x13), (0x04, 0x01), (0x05, 0x12),
   (0x06, 0x13), (0x07, 0x0C), (0x08, 0x12), (0x09, 0x13), (0x0A, 0x0C), (0x0B, 0x05),
   (0x0C, 0x13), (0x0D, 0x0C), (0x0E, 0x05), (0x0F, 0x16), (0x10, 0x08), (0x11, 0x01),
   (0x12, 0x12), (0x13, 0x13), (0x14, 0x01), (0x15, 0x32), (0x16, 0x13), (0x17, 0x0C),
   (0x18, 0x12), (0x19, 0x13), (0x1A, 0x2C), (0x1B, 0x25), (0x1C, 0x13), (0x1D, 0x0C),
   (0x1E, 0x25), (0x1F, 0x16)] = true := by decide

/-- The rows at `W = 4` and `W = 16`. -/
theorem test_width_four_sixteen : rspTable 4
  [(0x1F1, 0x30), (0x171, 0xC8), (0x188, 0xB0), (0x099, 0x12), (0x05A, 0x4F), (0x177, 0xCE),
   (0x187, 0x4F), (0x1FF, 0x5E)] = true ∧
  rspTable 16 [(0x0FFFF0001, 0x30000), (0x17FFF0001, 0xC8000), (0x180008000, 0xB0000), (0x012344321, 0x05555),
   (0x180007FFF, 0x4FFFF), (0x09C407530, 0x11170)] = true := by
  decide

/-- The carry chains of E3 and V20, written `c[W] .. c[0]`. -/
theorem test_carries :
    (List.range 9).map (carryInto (W := 8) 200 100) = [false, false, false, false, false, false, false, true, true] ∧
    (List.range 9).map (carryInto (W := 8) 128 255) = [false, false, false, false, false, false, false, false, true] := by
  decide

/-- The signed readings of V5, V6, V20 and V2, and of B22. -/
theorem test_signed_values :
    (engineAdd (W := 8) .signed 255 255).signedValue = some (-2) ∧
    (engineAdd (W := 8) .signed 127 1).signedValue = some (-128) ∧
    (engineAdd (W := 8) .signed 128 255).signedValue = some 127 ∧
    (engineAdd (W := 8) .signed 0 0).signedValue = some 0 ∧ (engineAdd (W := 2) .signed 1 1).signedValue = some (-2) := by
  decide

/-! ## The Normalizer and the host: sections 1.2, 3 and 4 -/

/-- `normalize(t, Binary, W)`. -/
def binText (W : Nat) (t : String) (hW : 1 ≤ W := by decide) : Except NormalizationError (Operand W) :=
  normalizeText t.toList .binary W hW

/-- `normalize(t, Decimal, W)`. -/
def decText (W : Nat) (t : String) (hW : 1 ≤ W := by decide) : Except NormalizationError (Operand W) :=
  normalizeText t.toList .decimal W hW

/-- T1 to T16, NORM.BIN at `W = 8`. -/
theorem test_norm_bin :
    binText 8 "11001000" = .ok 0b11001000 ∧ binText 8 "101" = .ok 0b00000101 ∧
    binText 8 "0" = .ok 0 ∧ binText 8 "1" = .ok 1 ∧ binText 8 "11111111" = .ok 255 ∧
    binText 8 "00000000" = .ok 0 ∧ binText 8 "101010101" = .error .tooLong ∧
    binText 8 "000000001" = .error .tooLong ∧ binText 8 "" = .error .emptyOperand ∧
    binText 8 "   " = .error .emptyOperand ∧ binText 8 "102" = .error .invalidNumeral ∧
    binText 8 "1010101012" = .error .invalidNumeral ∧ binText 8 " 101 " = .ok 0b00000101 ∧
    binText 8 "1 0" = .error .invalidNumeral ∧ binText 8 "-1" = .error .invalidNumeral ∧
    binText 8 "0b101" = .error .invalidNumeral := by decide

/-- T17 to T30, NORM.DEC at `W = 8`. -/
theorem test_norm_dec :
    decText 8 "200" = .ok 0b11001000 ∧ decText 8 "0" = .ok 0 ∧ decText 8 "255" = .ok 255 ∧
    decText 8 "256" = .error .outOfRange ∧ decText 8 "" = .error .emptyOperand ∧
    decText 8 "007" = .ok 7 ∧ decText 8 "-5" = .error .invalidNumeral ∧
    decText 8 "+5" = .error .invalidNumeral ∧ decText 8 "12a" = .error .invalidNumeral ∧
    decText 8 "5.0" = .error .invalidNumeral ∧ decText 8 "99999999999999999999" = .error .outOfRange ∧
    decText 8 " 42\n" = .ok 0b00101010 ∧ decText 8 "0000000000256" = .error .outOfRange ∧
    decText 8 "101" = .ok 0b01100101 := by decide

/-- T31 to T38, other widths. -/
theorem test_norm_widths :
    decText 4 "15" = .ok 15 ∧ decText 4 "16" = .error .outOfRange ∧
    binText 4 "10101" = .error .tooLong ∧ decText 16 "65535" = .ok 65535 ∧
    decText 16 "256" = .ok 256 ∧ binText 1 "1" = .ok 1 ∧ decText 1 "2" = .error .outOfRange ∧
    binText 1 "10" = .error .tooLong := by decide

/-- P1: text in, flags out, mixed representations. -/
theorem test_host_P1 : addTexts 8 (by decide) ⟨"200".toList, .decimal⟩ ⟨"1100100".toList, .binary⟩ .unsigned =
    .added { resultBits := 0b00101100, carry := true, zero := false, sign := false, overflow := false,
             unsignedValue := 44, signedValue := none } := by decide

/-- P5, steps 1 to 3: the first operand fails and add is not invoked. -/
theorem test_host_P5 :
    addTexts 4 (by decide) ⟨"16".toList, .decimal⟩ ⟨"1".toList, .binary⟩ .signed =
      .notInvoked (some .outOfRange) none := by decide

/-- Entry U5: at width 0 the host is refused and no text gets a value. -/
theorem test_present_refuses_zero_width :
    (session 0 0).presentTexts ⟨"0".toList, .decimal⟩ ⟨"0".toList, .binary⟩ .unsigned = .refused .zeroWidth := by decide

/-- P4a, step 2: the host's pattern of -30. -/
theorem test_neg_pattern : negPattern (W := 8) 30 = 0b11100010 := by decide

/-! ## Witnesses: for each statement with hypotheses, values that meet all of them together -/

theorem test_witness_RequestWordSelectsItsRowByTheModeBit :
    1 ≤ 8 ∧ (0x0C864#17).toNat &&& 2 ^ 16 = 0 ∧ (0x16432#17).toNat &&& 2 ^ 16 = 2 ^ 16 := by decide
theorem test_witness_EncodedInvocationDecodesToItself :
    (Instr.addu 8 255 255).wf 8 = true ∧ (Instr.adds 1 1 1).wf 1 = true := by decide
theorem test_witness_EveryRequestWordIsExactlyOneInvocation : 1 ≤ 1 ∧ encodeWord (.adds 1 1 1) = ⟨3, 0b111⟩ := by decide
theorem test_witness_ResponseWordPacksFlagsAboveTheResult : 1 ≤ State.reset.width := by decide
theorem test_witness_WrittenInvocationParsesToItself :
    (Instr.addu 1 1 0).wf 1 = true ∧ (Instr.adds 4 15 1).wf 4 = true := by decide
theorem test_witness_StepRunsThePresentedInvocation :
    ((session 8 0x0C864).request = some ⟨17, 0x0C864⟩ ∧
      decodeWord (session 8 0x0C864).width ⟨17, 0x0C864⟩ = .ok (.addu 8 200 100)) ∧
    State.reset.request = none := by decide
/-- Each outcome of a step, at the boundary of the request length. -/
theorem test_witness_StepIsRefusedExactlyWhereNoRequestWordStands :
    step (session 8 0x1FFFF) = .next (session 8 0x1FFFF).afterStep ∧
    step (session 0 1) = .refused .zeroWidth ∧
    step (State.reset.present ⟨16, 0xFFFF⟩) = .refused .requestLength ∧
    step (State.reset.present ⟨18, 0⟩) = .refused .requestLength := ⟨rfl, rfl, rfl, rfl⟩
theorem test_witness_ExecIsRefusedExactlyOnAWrongWidth :
    exec (.addu 0 0 0) (session 0 0) = .refused .zeroWidth ∧
    exec (.adds 7 1 1) State.reset = .refused .operandWidth := ⟨rfl, rfl⟩
theorem test_witness_EveryWellFormedInvocationCompletes : (Instr.adds 8 128 128).wf State.reset.width = true := by decide
theorem test_witness_AnInvocationChangesOnlyTheResult :
    exec (.adds 8 100 50) (session 8 0x16432) = .next (session 8 0x16432).afterStep ∧
    exec (.addu 8 200 100) (session 8 0x0C864) = .next (session 8 0x0C864).afterStep := ⟨rfl, rfl⟩
theorem test_witness_AStepWritesNeitherTheWidthNorTheInputs :
    step (session 16 0x180008000) = .next (session 16 0x180008000).afterStep := rfl
theorem test_witness_EveryStepKeepsTheInvariant :
    (session 8 0x16432).afterStep.inv = true ∧
    step (session 8 0x16432).afterStep = .next (session 8 0x16432).afterStep := ⟨rfl, rfl⟩
theorem test_witness_EveryStepSettlesTheOutputs :
    step (session 1 0x7) = .next (session 1 0x7).afterStep ∧ step State.reset = .next State.reset := ⟨rfl, rfl⟩
theorem test_witness_NoEarlierInvocationInfluencesALaterOne :
    step (State.reset.present ⟨17, 0x16432⟩) = .next (session 8 0x16432).afterStep := rfl
/-- Two sessions that differ in the Result they show. -/
theorem test_witness_AStepDependsOnlyOnWidthAndInputs :
    (session 8 0x16432).width = (session 8 0x16432).afterStep.width ∧
    (session 8 0x16432).request = (session 8 0x16432).afterStep.request ∧
    session 8 0x16432 ≠ (session 8 0x16432).afterStep := by decide
theorem test_witness_OutputPortsAreAFunctionOfInputPorts :
    1 ≤ (session 8 0x16432).width ∧ (session 8 0x16432).inPorts = some ⟨100, 50, true⟩ := by decide
/-- P2's two words: the overflow of the first does not reach the second. -/
theorem test_witness_EveryInvocationOfASequenceAnswersAlone :
    (runWords State.reset [⟨17, 0x16432⟩, ⟨17, 0x1966A⟩]).map (fun o => (answer o).map (·.result.rspWord.toNat)) =
      [some 0xC96, some 0x300] := by decide
theorem test_witness_TableWordRunsAsTheFirstInvocation :
    decodeTableWord 24 0x16432 = some (.adds 8 100 50) ∧ decodeTableWord 17 0x0C864 = some (.addu 8 200 100) := by decide
theorem test_witness_AdduCompletesAsItsPseudocodeSays : 1 ≤ (session 8 0x0C864).width := by decide
theorem test_witness_AddsCompletesAsItsPseudocodeSays : 1 ≤ (session 1 0x7).width := by decide
theorem test_witness_AdduResultInIntegers : 1 ≤ (session 16 0x0FFFF0001).width := by decide
/-- Each of the three cases of the signed value occurs, at the ends of the range. -/
theorem test_witness_AddsResultInIntegers :
    1 ≤ State.reset.width ∧ sval (W := 8) 128 + sval (W := 8) 255 < -2 ^ (8 - 1) ∧
    2 ^ (8 - 1) - 1 < sval (W := 8) 127 + sval (W := 8) 1 ∧ sval (W := 8) 128 + sval (W := 8) 0 = -2 ^ (8 - 1) ∧
    sval (W := 8) 127 + sval (W := 8) 0 = 2 ^ (8 - 1) - 1 := by decide
theorem test_witness_CarryChainIsFullAdders : 7 < 8 ∧ carryInto (W := 8) 128 128 8 = true := by decide
theorem test_witness_CarriesAtTheMostSignificantBit : 1 ≤ 1 ∧ carryOutOfMsb (W := 1) 1 1 = true := by decide
theorem test_witness_ZeroAndSignReadTheResultBits : 1 ≤ 8 ∧ val (W := 8) 255 + val (W := 8) 1 = 2 ^ 8 := by decide
theorem test_witness_CarryInBothModesOverflowOnlyInSigned : 1 ≤ State.reset.width := by decide
theorem test_witness_UnsignedAlwaysReportedSignedOnlyInSigned :
    1 ≤ 8 ∧ (sumBits (W := 8) 100 50).getLsbD 7 = true ∧ (sumBits (W := 8) 100 20).getLsbD 7 = false := by decide
theorem test_witness_ReadingsOfAVector :
    1 ≤ 8 ∧ (0x7F#8).getLsbD (8 - 1) = false ∧ (0x80#8).getLsbD (8 - 1) = true := by decide
theorem test_witness_StringOfAVectorIsMostSignificantFirst : 7 < 8 ∧ str (W := 8) 200 = "11001000".toList := by decide
theorem test_witness_IntegerLawsOfTheAddition :
    1 ≤ 8 ∧ 8 ≤ 8 ∧ (val (W := 8) 0 = 0 ∧ val (W := 8) 0 = 0) ∧ val (W := 8) 128 + val (W := 8) 128 = 2 ^ 8 := by decide
/-- Each clause: no overflow, two non-negative operands that overflow, two negative ones, different signs. -/
theorem test_witness_SignedOverflowLaws :
    1 ≤ 8 ∧ (engineAdd (W := 8) .signed 50 50).overflow = false ∧
    ((engineAdd (W := 8) .signed 127 1).overflow = true ∧ msb (W := 8) 127 = false ∧ msb (W := 8) 1 = false) ∧
    ((engineAdd (W := 8) .signed 128 255).overflow = true ∧ msb (W := 8) 128 = true ∧ msb (W := 8) 255 = true) ∧
    msb (W := 8) 128 ≠ msb (W := 8) 127 := by decide
theorem test_witness_FlagCombinationsThatOccur :
    1 ≤ 1 ∧ (true, true, false, true) ∈ flagTuples .signed 1 ∧ (true, false, false, false) ∉ flagTuples .signed 2 ∧
    (true, false, false, false) ∈ flagTuples .signed 3 := by decide
theorem test_witness_AlgebraicLawsOfTheInvocation :
    1 ≤ 8 ∧ val (W := 8) 1 + val (W := 8) 255 = 2 ^ 8 ∧ val (W := 8) 128 + val (W := 8) 128 = 2 ^ 8 := by decide
theorem test_witness_HostSubtractionSetsCarryWhereNoBorrow : 1 ≤ 8 ∧ val (W := 8) 30 ≠ 0 := by decide
/-- Each clause: a sum beyond `2^W`, the largest sum at `W = 2`, the most negative number twice at `W = 1`. -/
theorem test_witness_CornerCasesOfTheTwoInstructions :
    (1 ≤ 8 ∧ 2 ^ 8 < val (W := 8) 200 + val (W := 8) 100) ∧ (2 ≤ 2 ∧ val (W := 2) 3 = 2 ^ 2 - 1) ∧
    (1 ≤ 1 ∧ val (W := 1) 1 = 2 ^ (1 - 1)) := by decide
theorem test_witness_TrimmingTakesOffOuterWhitespaceOnly :
    1 ≤ 8 ∧ (" \t".toList).all isWhitespace = true ∧ ("\n".toList).all isWhitespace = true ∧ trim "  ".toList = [] ∧
    (trim "1 0".toList).any isWhitespace = true := by decide
/-- Each error kind occurs. -/
theorem test_witness_EachErrorHasItsExactCause :
    1 ≤ 8 ∧ decText 8 " " = .error .emptyOperand ∧
    decText 8 "1a" = .error .invalidNumeral ∧
    decText 8 "256" = .error .outOfRange ∧
    binText 8 "000000001" = .error .tooLong := by decide
theorem test_witness_BinaryTextNormalizesToItsPaddedPattern :
    1 ≤ 8 ∧ binText 8 "10000001" = .ok 129 := by decide
theorem test_witness_DecimalTextNormalizesToItsValue : 1 ≤ 8 ∧ decText 8 "255" = .ok 255 := by decide
theorem test_witness_EveryVectorIsTheNormalizersOutput : 1 ≤ State.reset.width := by decide
theorem test_witness_DecimalNumeralRoundTrips : 1 ≤ State.reset.width := by decide
theorem test_witness_HostAddsOnlyIfBothTextsNormalize :
    1 ≤ 8 ∧ addTexts 8 (by decide) ⟨"x".toList, .decimal⟩ ⟨"".toList, .binary⟩ .signed =
      .notInvoked (some .invalidNumeral) (some .emptyOperand) := by decide
/-- Each clause: both texts normalize, one fails, the width is 0. -/
theorem test_witness_EnteredTextsReachTheirResult :
    (1 ≤ State.reset.width ∧ decText 8 "200" = .ok 200 ∧ binText 8 "1100100" = .ok 100) ∧
    decText 8 "256" = .error .outOfRange ∧ ¬ 1 ≤ (session 0 0).width := by decide

end Sys2Proof.Tests
end

section
/-! PROOFS. The two readings of a vector (rule R8): the unsigned one as a sum of bits, the signed one by the MSB. -/

namespace Sys2Proof.Machine

/-- The weighted low `n` bits of a vector are its value modulo `2^n`. -/
theorem sum_range_getLsbD_eq_val_mod {W : Nat} (v : Operand W) (n : Nat) :
    ((List.range n).map fun i => (v.getLsbD i).toNat * 2 ^ i).sum = val v % 2 ^ n := by
  induction n with
  | zero => simp [Nat.mod_one]
  | succ n ih =>
    have hbit : (v.getLsbD n).toNat = val v / 2 ^ n % 2 := Nat.toNat_testBit _ _
    rw [List.range_succ, List.map_append, List.sum_append, ih, List.map_singleton, List.sum_singleton, hbit,
      Nat.mod_pow_succ, Nat.mul_comm]

/-- Rule R8: `val(v)` is the sum of `v[i] * 2^i`. -/
theorem val_eq_sum_getLsbD {W : Nat} (v : Operand W) :
    val v = ((List.range W).map fun i => (v.getLsbD i).toNat * 2 ^ i).sum := by
  rw [sum_range_getLsbD_eq_val_mod, Nat.mod_eq_of_lt (val_lt v)]

theorem sval_of_msb_false {W : Nat} {v : Operand W} (h : msb v = false) : sval v = val v := by simp [sval, h]

theorem sval_of_msb_true {W : Nat} {v : Operand W} (h : msb v = true) : sval v = -((val (~~~v) : Int) + 1) := by
  simp [sval, h]

/-- Rule R8, the closed form: the MSB weighs `2^W` less in the signed reading. -/
theorem sval_eq_val_sub_msb {W : Nat} (v : Operand W) : sval v = val v - 2 ^ W * (msb v).toNat := by
  rw [sval_eq_toInt, msb_eq_msb, BitVec.toInt_eq_msb_cond]
  cases v.msb <;> simp [val]

theorem neg_two_pow_le_sval {W : Nat} (v : Operand W) : -2 ^ (W - 1) ≤ sval v := by
  rw [sval_eq_toInt]
  exact BitVec.le_toInt v

theorem sval_lt_two_pow {W : Nat} (v : Operand W) : sval v < 2 ^ (W - 1) := by
  rw [sval_eq_toInt]
  exact BitVec.toInt_lt

/-- Rule R8: where the MSB is 1, the unsigned reading is `2^W` less the magnitude of the signed one. -/
theorem val_eq_two_pow_sub_abs_sval {W : Nat} {v : Operand W} (h : msb v = true) :
    (val v : Int) = 2 ^ W - |sval v| := by
  have hneg : sval v ≤ 0 := by
    rw [sval_of_msb_true h]
    omega
  rw [abs_of_nonpos hneg, sval_eq_val_sub_msb, h, Bool.toNat_true]
  ring

/-- Settles O34: the sum of bits, the two cases of the MSB, the range and the closed form, a lemma each. -/
theorem readingsOfAVector : Obligations.ReadingsOfAVector := by
  intro W v _
  exact ⟨val_eq_sum_getLsbD v, Nat.le_sub_one_of_lt (val_lt v), sval_of_msb_false,
    fun h => ⟨sval_of_msb_true h, val_eq_two_pow_sub_abs_sval h⟩,
    neg_two_pow_le_sval v, Int.le_sub_one_of_lt (sval_lt_two_pow v), sval_eq_val_sub_msb v⟩

end Sys2Proof.Machine
end

section
/-! PROOFS. The request word (rules R33, R34, R37): its fields bit by bit and as numbers, and the row its mode bit
selects. -/

namespace Sys2Proof.Machine

/-- Settles O2: the two tables of rule R33, row by row. -/
theorem modeIsOneBit : Obligations.ModeIsOneBit := ⟨rfl, rfl, rfl, rfl⟩

/-- Appending vectors, as a number: the left one stands above the right one. -/
theorem toNat_append_eq_mul_add {n m : Nat} (x : BitVec n) (y : BitVec m) :
    (x ++ y).toNat = x.toNat * 2 ^ m + y.toNat := by
  rw [BitVec.toNat_append, ← Nat.shiftLeft_add_eq_or_of_lt y.isLt, Nat.shiftLeft_eq]

/-- Rule R34: the value of the request word. -/
theorem packReq_toNat {W : Nat} (m : Mode) (a b : Operand W) :
    (packReq m a b).toNat = m.toBit.toNat * 2 ^ (2 * W) + val a * 2 ^ W + val b := by
  simp only [packReq, BitVec.toNat_cast, toNat_append_eq_mul_add, BitVec.toNat_ofBool, val]
  ring

/-- Rule R34: `REQ[W+i] = a[i]`. -/
theorem packReq_getLsbD_add {W : Nat} (m : Mode) (a b : Operand W) {i : Nat} (hi : i < W) :
    (packReq m a b).getLsbD (W + i) = a.getLsbD i := by
  simp [packReq, BitVec.getLsbD_append, hi]

/-- Rule R34: `REQ[i] = b[i]`. -/
theorem packReq_getLsbD {W : Nat} (m : Mode) (a b : Operand W) {i : Nat} (hi : i < W) :
    (packReq m a b).getLsbD i = b.getLsbD i := by
  simp [packReq, BitVec.getLsbD_append, hi]

/-- Settles O3: each field of the word, its value, and the two worked examples by evaluation. -/
theorem requestWordPacksModeAndOperands : Obligations.RequestWordPacksModeAndOperands := by
  refine ⟨fun W m a b => ⟨encodeWord_instrOf W m a b, Laws.packReq_mode_bit m a b, fun i hi => ?_,
    packReq_toNat m a b⟩, by decide, by decide⟩
  exact ⟨packReq_getLsbD_add m a b hi, packReq_getLsbD m a b hi⟩

/-- The first operand is the arithmetic slice above the low `W` bits. -/
theorem reqA_eq_bitsOf {W : Nat} (req : BitVec (2 * W + 1)) : reqA req = bitsOf W (req.toNat / 2 ^ W) := by
  apply BitVec.eq_of_toNat_eq
  simp [reqA, bitsOf, Nat.shiftRight_eq_div_pow]

/-- The second operand is the arithmetic slice of the low `W` bits. -/
theorem reqB_eq_bitsOf {W : Nat} (req : BitVec (2 * W + 1)) : reqB req = bitsOf W req.toNat := by
  apply BitVec.eq_of_toNat_eq
  simp [reqB, bitsOf]

/-- The mask of the opcode map keeps the mode bit alone, in its place. -/
theorem req_and_mask {W : Nat} (req : BitVec (2 * W + 1)) :
    req.toNat &&& 2 ^ (2 * W) = (req.getLsbD (2 * W)).toNat * 2 ^ (2 * W) := Nat.and_two_pow _ _

/-- Every request word decodes: the bit at `2W` gives the row, the two slices below it the operands. -/
theorem decodeWord_req {W : Nat} (hW : 1 ≤ W) (req : BitVec (2 * W + 1)) :
    decodeWord W ⟨2 * W + 1, req⟩ =
      .ok (instrOf W (Mode.ofBit (req.getLsbD (2 * W))) (bitsOf W (req.toNat / 2 ^ W)) (bitsOf W req.toNat)) := by
  rw [decodeWord_ok_iff, ← reqA_eq_bitsOf, ← reqB_eq_bitsOf]
  exact ⟨hW, rfl, rfl⟩

/-- Settles O4, by the two values of the mode bit. -/
theorem requestWordSelectsItsRowByTheModeBit : Obligations.RequestWordSelectsItsRowByTheModeBit := by
  intro W req hW
  rw [req_and_mask, decodeWord_req hW]
  cases req.getLsbD (2 * W) with
  | false => exact .inl ⟨Nat.zero_mul _, rfl⟩
  | true => exact .inr ⟨Nat.one_mul _, rfl⟩

end Sys2Proof.Machine
end

section
/-! PROOFS. The carry chain in integers (rule R53): when a carry is 1, and `C || result` as the exact sum. -/

namespace Sys2Proof.Machine

/-- `c[i]` is 1 exactly where the low `i` bits of the operands add up to `2^i` or more. -/
theorem carryInto_iff {W : Nat} (a b : Operand W) (i : Nat) :
    carryInto a b i = true ↔ 2 ^ i ≤ val a % 2 ^ i + val b % 2 ^ i := by
  simp [carryInto_eq_carry, BitVec.carry, val]

/-- The carry out of the MSB says that the sum does not fit. -/
theorem carryInto_width_iff {W : Nat} (a b : Operand W) : carryInto a b W = true ↔ 2 ^ W ≤ val a + val b := by
  rw [carryInto_iff, Nat.mod_eq_of_lt (val_lt a), Nat.mod_eq_of_lt (val_lt b)]

theorem val_sumBits {W : Nat} (a b : Operand W) : val (sumBits a b) = (val a + val b) % 2 ^ W := by
  rw [sumBits_eq_add]
  exact BitVec.toNat_add a b

/-- The carry out of the MSB and the sum bits together are the exact sum. -/
theorem val_add_val {W : Nat} (a b : Operand W) :
    val a + val b = (carryInto a b W).toNat * 2 ^ W + val (sumBits a b) := by
  have ha := val_lt a
  have hb := val_lt b
  rw [val_sumBits]
  cases hc : carryInto a b W with
  | false =>
    have hfits : val a + val b < 2 ^ W := by simpa [hc] using carryInto_width_iff a b
    simp [Nat.mod_eq_of_lt hfits]
  | true =>
    have hwraps : 2 ^ W ≤ val a + val b := (carryInto_width_iff a b).1 hc
    rw [Nat.mod_eq_sub_mod hwraps, Nat.mod_eq_of_lt (by omega), Bool.toNat_true]
    omega

end Sys2Proof.Machine
end

section
/-! PROOFS. The response word (rule R35): the flags above the result, and what a host reads from the low bits. -/

namespace Sys2Proof.Machine

/-- Four wires side by side: each bit of the bundle is its wire. -/
theorem getLsbD_append_four (o s z c : Bool) :
    let v := BitVec.ofBool o ++ BitVec.ofBool s ++ BitVec.ofBool z ++ BitVec.ofBool c
    v.getLsbD 3 = o ∧ v.getLsbD 2 = s ∧ v.getLsbD 1 = z ∧ v.getLsbD 0 = c := by
  revert o s z c
  decide

section
variable {W : Nat} (r : Result W)

/-- Above the result stand the four flags as they are packed. -/
theorem rspWord_flag_bit (k : Nat) :
    r.rspWord.getLsbD (W + k) = (BitVec.ofBool r.overflow ++ BitVec.ofBool r.sign ++ BitVec.ofBool r.zero ++
      BitVec.ofBool r.carry).getLsbD k := by
  rw [Result.rspWord, BitVec.getLsbD_cast, BitVec.getLsbD_append, if_neg (by omega), Nat.add_sub_cancel_left]

/-- Bits `W+3` down to `W` are O, S, Z and C. -/
theorem rspWord_flag_bits :
    r.rspWord.getLsbD (W + 3) = r.overflow ∧ r.rspWord.getLsbD (W + 2) = r.sign ∧
      r.rspWord.getLsbD (W + 1) = r.zero ∧ r.rspWord.getLsbD W = r.carry := by
  obtain ⟨ho, hs, hz, hc⟩ := getLsbD_append_four r.overflow r.sign r.zero r.carry
  exact ⟨(rspWord_flag_bit r 3).trans ho, (rspWord_flag_bit r 2).trans hs, (rspWord_flag_bit r 1).trans hz,
    (rspWord_flag_bit r 0).trans hc⟩

theorem rspWord_result_bit {i : Nat} (hi : i < W) : r.rspWord.getLsbD i = r.resultBits.getLsbD i := by
  simp [Result.rspWord, BitVec.getLsbD_append, hi]

/-- The value of the response word. -/
theorem rspWord_toNat :
    r.rspWord.toNat = (r.overflow.toNat * 4 + r.sign.toNat * 2 + r.zero.toNat) * 2 ^ (W + 1) +
      (r.carry.toNat * 2 ^ W + val r.resultBits) := by
  simp only [Result.rspWord, BitVec.toNat_cast, toNat_append_eq_mul_add, BitVec.toNat_ofBool, val]
  ring

/-- Bits `W` down to 0 are `C || result`. -/
theorem rspWord_toNat_mod_two_pow_succ :
    r.rspWord.toNat % 2 ^ (W + 1) = r.carry.toNat * 2 ^ W + val r.resultBits := by
  have hr := val_lt r.resultBits
  have hc : r.carry.toNat * 2 ^ W ≤ 1 * 2 ^ W := Nat.mul_le_mul_right _ (Bool.toNat_le _)
  rw [rspWord_toNat, Nat.mul_add_mod_of_lt]
  omega

/-- Bits `W-1` down to 0 are the result. -/
theorem rspWord_toNat_mod_two_pow : r.rspWord.toNat % 2 ^ W = val r.resultBits := by
  rw [← Nat.mod_mod_of_dvd _ (Nat.pow_dvd_pow 2 W.le_succ), rspWord_toNat_mod_two_pow_succ,
    Nat.mul_add_mod_of_lt (val_lt _)]

/-- The low bits, as a vector, are the result bits. -/
theorem bitsOf_rspWord : bitsOf W r.rspWord.toNat = r.resultBits :=
  BitVec.eq_of_toNat_eq ((BitVec.toNat_ofNat _ _).trans (rspWord_toNat_mod_two_pow r))

end

/-- The signed value is absent exactly in Unsigned mode (rule R50). -/
theorem signedReading_eq_ite {W : Nat} (m : Mode) (v : Operand W) :
    signedReading m v = if m = .signed then some (sval v) else none := by
  cases m <;> rfl

/-- `signed_valid` is the mode bit (rule R23). -/
@[simp] theorem engineAdd_signedValid {W : Nat} (m : Mode) (a b : Operand W) :
    (engineAdd m a b).outPorts.signedValid = m.toBit := by
  cases m <;> rfl

/-- Settles O7: a lemma for each field of the word, `C || result` by `val_add_val`, and the two worked examples by
evaluation. -/
theorem responseWordPacksFlagsAboveTheResult : Obligations.ResponseWordPacksFlagsAboveTheResult := by
  refine ⟨fun W m a b _ => ?_, by decide, by decide⟩
  intro r
  have hsum : r.rspWord.toNat % 2 ^ (W + 1) = val a + val b :=
    (rspWord_toNat_mod_two_pow_succ r).trans (val_add_val a b).symm
  have hsigned : r.signedValue = if m = .signed then some (sval (bitsOf W r.rspWord.toNat)) else none := by
    rw [bitsOf_rspWord]
    exact signedReading_eq_ite m r.resultBits
  obtain ⟨ho, hs, hz, hc⟩ := rspWord_flag_bits r
  exact ⟨ho, hs, hz, hc, fun _ hi => rspWord_result_bit r hi, hsum, (rspWord_toNat_mod_two_pow r).symm, hsigned,
    engineAdd_signedValid m a b⟩

end Sys2Proof.Machine
end

section
/-! PROOFS. The carry chain position by position (rules R41 to R43), the four flags (rules R45 to R48) and the two
reported values (rules R49, R50). -/

namespace Sys2Proof.Machine

/-- Every row of the full adder's truth table (rule R41). -/
theorem toNat_add_eq_maj_fullSum (p q c : Bool) :
    p.toNat + q.toNat + c.toNat = 2 * (maj p q c).toNat + (fullSum p q c).toNat := by
  revert p q c
  decide

/-- Settles O29: the chain and the sum bit by their own equations, the truth table by its rows. -/
theorem carryChainIsFullAdders : Obligations.CarryChainIsFullAdders :=
  ⟨fun _ _ _ => ⟨rfl, fun _ _ => ⟨rfl, rfl⟩⟩, toNat_add_eq_maj_fullSum⟩

/-- Rule R43: the carry out of the MSB is that of the full adder at the MSB. -/
theorem carryOutOfMsb_eq_maj {W : Nat} (hW : 1 ≤ W) (a b : Operand W) :
    carryOutOfMsb a b = maj (msb a) (msb b) (carryIntoMsb a b) := by
  obtain ⟨n, rfl⟩ := Nat.exists_eq_add_of_le' hW
  exact carryInto_succ a b n

/-- At `W = 1` the only carry comes from the one position, whose carry-in is the initial carry. -/
theorem carryInto_one (a b : Operand 1) : carryInto a b 1 = (a.getLsbD 0 && b.getLsbD 0) := by
  rw [carryInto_succ, carryInto_zero]
  simp [maj]

/-- At `W = 1` the carry into the MSB is the initial carry, so O = C in Signed mode (rule R42). -/
theorem overflowFlag_signed_width_one (a b : Operand 1) : overflowFlag .signed a b = carryInto a b 1 :=
  Bool.false_xor _

/-- Settles O30: the carry out of the MSB by its full adder, and `W = 1` by its one position. -/
theorem carriesAtTheMostSignificantBit : Obligations.CarriesAtTheMostSignificantBit := by
  refine ⟨fun W a b hW => ⟨rfl, rfl, carryOutOfMsb_eq_maj hW a b, fun _ => rfl⟩, fun a b => ?_⟩
  have hO := overflowFlag_signed_width_one a b
  exact ⟨rfl, hO, hO.trans (carryInto_one a b)⟩

/-- Rule R48 as one formula: O is the mode bit AND the XOR of the two carries at the MSB. -/
theorem overflowFlag_eq_toBit_and {W : Nat} (m : Mode) (a b : Operand W) :
    overflowFlag m a b = (m.toBit && (carryInto a b (W - 1) ^^ carryInto a b W)) := by
  cases m with
  | unsigned => rfl
  | signed => exact (Bool.true_and _).symm

/-- Settles O32: the formula of O in each mode, `W = 1` by its one position, and the worked examples by evaluation. -/
theorem carryInBothModesOverflowOnlyInSigned : Obligations.CarryInBothModesOverflowOnlyInSigned :=
  ⟨fun _ a b _ => ⟨fun _ => rfl, rfl, rfl, fun m => overflowFlag_eq_toBit_and m a b, rfl, rfl, rfl⟩,
    fun a b => (overflowFlag_signed_width_one a b).trans (carryInto_one a b),
    fun m => by cases m <;> decide, by decide, by decide, by decide, by decide⟩

theorem zeroFlag_iff {W : Nat} (v : Operand W) : zeroFlag v = true ↔ v = 0#W := beq_iff_eq

/-- Rule R45 by the value: Z is 1 exactly where the result is the number 0. -/
theorem zeroFlag_iff_val {W : Nat} (v : Operand W) : zeroFlag v = true ↔ val v = 0 :=
  (zeroFlag_iff v).trans BitVec.toNat_inj.symm

/-- Rule R45 bit by bit: Z is 1 exactly where every result bit is 0. -/
theorem zeroFlag_iff_getLsbD {W : Nat} (v : Operand W) :
    zeroFlag v = true ↔ ∀ i < W, v.getLsbD i = false := by
  rw [zeroFlag_iff]
  constructor
  · rintro rfl i _
    exact BitVec.getLsbD_zero
  · intro h
    exact BitVec.eq_of_getLsbD_eq fun i hi => (h i hi).trans BitVec.getLsbD_zero.symm

/-- The MSB splits the vectors of a width by value at `2^(W-1)` (rule R46). -/
theorem msb_iff {W : Nat} (v : Operand W) : msb v = true ↔ 2 ^ (W - 1) ≤ val v := by
  rw [msb_eq_msb, BitVec.msb_eq_decide, decide_eq_true_iff, val]

@[simp] theorem msb_zero (W : Nat) : msb (0#W) = false := BitVec.getLsbD_zero

/-- A sum of exactly `2^W` leaves no result bit set. -/
theorem sumBits_eq_zero_of_val_add {W : Nat} {a b : Operand W} (h : val a + val b = 2 ^ W) : sumBits a b = 0#W := by
  rw [← zeroFlag_iff, zeroFlag_iff_val, val_sumBits, h, Nat.mod_self]

/-- A sum of exactly `2^W` carries out of the MSB. -/
theorem carryInto_width_of_val_add {W : Nat} {a b : Operand W} (h : val a + val b = 2 ^ W) : carryInto a b W = true :=
  (carryInto_width_iff a b).2 h.ge

/-- Settles O31: a lemma for each reading of Z and S; no formula of either names the mode. -/
theorem zeroAndSignReadTheResultBits : Obligations.ZeroAndSignReadTheResultBits := by
  intro W m a b _ r
  exact ⟨zeroFlag_iff_getLsbD _, zeroFlag_iff_val _,
    fun h => ⟨(zeroFlag_iff _).2 (sumBits_eq_zero_of_val_add h), carryInto_width_of_val_add h⟩,
    rfl, msb_iff _, fun _ => ⟨rfl, rfl⟩⟩

/-- Settles O33: the unsigned value by its range, the signed value by the cases of the MSB, its range and its closed
form, and the pattern `10000000` by evaluation. -/
theorem unsignedAlwaysReportedSignedOnlyInSigned : Obligations.UnsignedAlwaysReportedSignedOnlyInSigned := by
  refine ⟨fun W a b _ => ⟨fun _ => ⟨rfl, Nat.le_sub_one_of_lt (val_lt _)⟩, rfl, rfl, rfl, sval (sumBits a b), rfl, ?_⟩,
    by decide⟩
  exact ⟨sval_of_msb_false, sval_of_msb_true, neg_two_pow_le_sval _, Int.le_sub_one_of_lt (sval_lt_two_pow _),
    sval_eq_val_sub_msb _⟩

end Sys2Proof.Machine
end

section
/-! PROOFS. The laws of the addition in integers (rule R53): the sum modulo `2^W`, and when it is zero. -/

namespace Sys2Proof.Machine

theorem sumBits_eq_bitsOf {W : Nat} (a b : Operand W) : sumBits a b = bitsOf W (val a + val b) :=
  BitVec.eq_of_toNat_eq ((val_sumBits a b).trans (BitVec.toNat_ofNat _ _).symm)

/-- One operation serves both readings: the result bits are the pattern of the signed sum, too. -/
theorem sumBits_eq_ofInt_sval {W : Nat} (a b : Operand W) : sumBits a b = BitVec.ofInt W (sval a + sval b) := by
  rw [sumBits_eq_add, sval_eq_toInt, sval_eq_toInt, BitVec.ofInt_add, BitVec.ofInt_toInt, BitVec.ofInt_toInt]

/-- Two numbers below `n` add up to a multiple of `n` only as `0 + 0` or with the sum `n`. -/
theorem add_mod_eq_zero_iff_of_lt {x y n : Nat} (hx : x < n) (hy : y < n) :
    (x + y) % n = 0 ↔ (x = 0 ∧ y = 0) ∨ x + y = n := by
  rcases Nat.lt_or_ge (x + y) n with h | h
  · rw [Nat.mod_eq_of_lt h]
    omega
  · rw [Nat.mod_eq_sub_mod h, Nat.mod_eq_of_lt (by omega)]
    omega

theorem zeroFlag_sumBits_iff {W : Nat} (a b : Operand W) :
    zeroFlag (sumBits a b) = true ↔ (val a + val b) % 2 ^ W = 0 := by
  rw [zeroFlag_iff_val, val_sumBits]

theorem carryInto_width_of_val_eq_zero {W : Nat} {a b : Operand W} (h : val a = 0 ∧ val b = 0) :
    carryInto a b W = false := by
  have hpos : 0 < 2 ^ W := Nat.two_pow_pos W
  rw [← Bool.not_eq_true, carryInto_width_iff]
  omega

theorem signFlag_sumBits {W : Nat} (a b : Operand W) :
    signFlag (sumBits a b) = ((val a + val b) % 2 ^ W).testBit (W - 1) := by
  rw [← val_sumBits]
  rfl

/-- The result bits as an integer: the exact sum less `2^W` where there is a carry. -/
theorem val_sumBits_cast {W : Nat} (a b : Operand W) :
    (val (sumBits a b) : Int) = val a + val b - (carryInto a b W).toNat * 2 ^ W := by
  rw [eq_sub_iff_add_eq, add_comm]
  exact_mod_cast (val_add_val a b).symm

/-- Settles O36: the carries by `carryInto_iff`, the result by `val_add_val` and `val_sumBits`, the two ways to a zero
result by `add_mod_eq_zero_iff_of_lt`, and both readings of the sum, a lemma each. -/
theorem integerLawsOfTheAddition : Obligations.IntegerLawsOfTheAddition := by
  intro W m a b _ r
  have hzero : r.zero = true ↔ (val a + val b) % 2 ^ W = 0 := zeroFlag_sumBits_iff a b
  exact ⟨fun i _ => carryInto_iff a b i, rfl, val_add_val a b, val_sumBits a b, sumBits_eq_bitsOf a b,
    carryInto_width_iff a b, hzero, hzero.trans (add_mod_eq_zero_iff_of_lt (val_lt a) (val_lt b)),
    carryInto_width_of_val_eq_zero, carryInto_width_of_val_add, signFlag_sumBits a b, val_sumBits a b,
    val_sumBits_cast a b, sumBits_eq_ofInt_sval a b⟩

end Sys2Proof.Machine
end

section
/-! PROOFS. The algebraic laws of an invocation (rule R57): exchange of the operands, the operand 0, and operands that
add up to `2^W`. -/

namespace Sys2Proof.Machine

theorem sumBits_swap {W : Nat} (a b : Operand W) : sumBits a b = sumBits b a := by
  rw [sumBits_eq_add, sumBits_eq_add, BitVec.add_comm]

theorem overflowFlag_swap {W : Nat} (m : Mode) (a b : Operand W) : overflowFlag m a b = overflowFlag m b a := by
  simp only [overflowFlag_eq_toBit_and, carryInto_swap a b]

/-- Rule R57: `add` is symmetric in its operands, in every field. -/
theorem engineAdd_swap {W : Nat} (m : Mode) (a b : Operand W) : engineAdd m a b = engineAdd m b a := by
  simp only [engineAdd, carryFlag, carryOutOfMsb, sumBits_swap a b, carryInto_swap a b, overflowFlag_swap m a b]

@[simp] theorem sumBits_zero_right {W : Nat} (a : Operand W) : sumBits a 0#W = a := by
  rw [sumBits_eq_add, BitVec.add_zero]

/-- Adding 0 carries nowhere: no position has two bits set. -/
@[simp] theorem carryInto_zero_right {W : Nat} (a : Operand W) (i : Nat) : carryInto a 0#W i = false := by
  induction i with
  | zero => rfl
  | succ i ih => simp [carryInto_succ, ih, maj]

@[simp] theorem overflowFlag_zero_right {W : Nat} (m : Mode) (a : Operand W) : overflowFlag m a 0#W = false := by
  simp [overflowFlag_eq_toBit_and]

/-- The MSB of the result is the sum bit of its full adder. -/
theorem msb_sumBits {W : Nat} (hW : 1 ≤ W) (a b : Operand W) :
    msb (sumBits a b) = ((msb a ^^ msb b) ^^ carryIntoMsb a b) := by
  rw [msb, sumBits_getLsbD, decide_eq_true (by omega), Bool.true_and]
  rfl

/-- Signed overflow without the carry into the MSB, which the sum bit there gives back (rule R54). -/
theorem overflowFlag_signed_eq {W : Nat} (hW : 1 ≤ W) (a b : Operand W) :
    overflowFlag .signed a b = (((carryInto a b W ^^ msb (sumBits a b)) ^^ msb a) ^^ msb b) := by
  rw [msb_sumBits hW]
  change (carryIntoMsb a b ^^ carryInto a b W) = _
  generalize msb a = p, msb b = q, carryIntoMsb a b = c, carryInto a b W = d
  revert p q c d
  decide

/-- Operands that add up to `2^W` overflow in Signed mode exactly where both are the most negative number: C = 1 and
S = 0, so O says that the two MSBs agree, and then neither operand can be below half of the sum. -/
theorem overflowFlag_signed_iff_of_val_add {W : Nat} (hW : 1 ≤ W) {a b : Operand W} (h : val a + val b = 2 ^ W) :
    overflowFlag .signed a b = true ↔ val a = 2 ^ (W - 1) ∧ val b = 2 ^ (W - 1) := by
  have hmsb : overflowFlag .signed a b = true ↔ (msb a = true ↔ msb b = true) := by
    rw [overflowFlag_signed_eq hW, carryInto_width_of_val_add h, sumBits_eq_zero_of_val_add h, msb_zero]
    simp
  have hhalf : 2 ^ W = 2 * 2 ^ (W - 1) := (mul_pow_sub_one (by omega) 2).symm
  rw [hmsb, msb_iff, msb_iff]
  omega

/-- Settles O39: symmetry, the operand 0 and the pairs that add up to `2^W` by a lemma each; the two modes compute the
other fields by the same formulas. -/
theorem algebraicLawsOfTheInvocation : Obligations.AlgebraicLawsOfTheInvocation := by
  intro W m a b hW
  refine ⟨engineAdd_swap m a b, ?_, rfl, ?_, fun h => ?_⟩
  · simp [zeroFlag_iff, signFlag, msb]
  · rintro _ _ _ rfl rfl rfl
    rfl
  · have hzero := sumBits_eq_zero_of_val_add h
    have hsign : signFlag (sumBits a b) = false := by rw [hzero, signFlag, msb_zero]
    exact ⟨hzero, (zeroFlag_iff _).2 hzero, carryInto_width_of_val_add h, hsign,
      overflowFlag_signed_iff_of_val_add hW h⟩

end Sys2Proof.Machine
end

section
/-! PROOFS. Trimming (rule R59): what it takes off, and that whitespace around a text changes no outcome. -/

namespace Sys2Proof.Machine

/-- The whitespace set by code point: space, and the run from tab to CR. -/
theorem isWhitespace_iff_toNat (c : Char) :
    isWhitespace c = true ↔ c.toNat = 32 ∨ (9 ≤ c.toNat ∧ c.toNat ≤ 13) := by
  simp only [isWhitespace, whitespace, List.contains_iff_mem, List.mem_cons, List.not_mem_nil, or_false]
  omega

/-- The whitespace set, character by character (rule R59, decision D11). -/
theorem isWhitespace_iff (c : Char) :
    isWhitespace c = true ↔ c = ' ' ∨ c = '\t' ∨ c = '\n' ∨ c = '\x0b' ∨ c = '\x0c' ∨ c = '\r' := by
  simp only [isWhitespace, whitespace, List.contains_iff_mem, List.mem_cons, List.not_mem_nil, or_false,
    ← Char.toNat_inj]
  rfl

/-- Trimming is dropping from the left, then from the right. -/
theorem trim_eq_rdropWhile (raw : Text) : trim raw = (raw.dropWhile isWhitespace).rdropWhile isWhitespace := rfl

/-- A text is what trimming takes off on the left, the trimmed text, and what it takes off on the right. -/
theorem takeWhile_append_trim_append_rtakeWhile (raw : Text) :
    raw.takeWhile isWhitespace ++ trim raw ++ (raw.dropWhile isWhitespace).rtakeWhile isWhitespace = raw := by
  rw [trim_eq_rdropWhile, List.append_assoc, List.rdropWhile_append_rtakeWhile, List.takeWhile_append_dropWhile]

theorem isWhitespace_eq_false_of_head?_trim {raw : Text} {c : Char} (h : (trim raw).head? = some c) :
    isWhitespace c = false := by
  obtain ⟨rest, hrest⟩ := (raw.dropWhile isWhitespace).rdropWhile_prefix isWhitespace
  have hhead : (raw.dropWhile isWhitespace).head? = some c := by
    rw [← hrest, ← trim_eq_rdropWhile, List.head?_append, h, Option.some_or]
  simpa only [hhead] using List.head?_dropWhile_not isWhitespace raw

theorem isWhitespace_eq_false_of_getLast?_trim {raw : Text} {c : Char} (h : (trim raw).getLast? = some c) :
    isWhitespace c = false := by
  rw [trim, List.getLast?_reverse] at h
  simpa only [h] using List.head?_dropWhile_not isWhitespace (raw.dropWhile isWhitespace).reverse

theorem trim_append_left {pre : Text} (hpre : pre.all isWhitespace = true) (t : Text) : trim (pre ++ t) = trim t := by
  rw [trim, List.dropWhile_append_of_pos (List.all_eq_true.1 hpre), ← trim]

/-- Whitespace on the right is taken off, whether or not the text before it is whitespace alone. -/
theorem trim_append_right {post : Text} (hpost : post.all isWhitespace = true) (t : Text) :
    trim (t ++ post) = trim t := by
  rw [List.all_eq_true] at hpost
  rw [trim, trim, List.dropWhile_append]
  split
  next hblank => rw [List.isEmpty_iff.1 hblank, List.dropWhile_eq_nil_iff.2 hpost]
  next => rw [List.reverse_append, List.dropWhile_append_of_pos fun c hc => hpost c (List.mem_reverse.1 hc)]

theorem all_takeWhile_isWhitespace (raw : Text) : (raw.takeWhile isWhitespace).all isWhitespace = true :=
  List.all_takeWhile

theorem all_rtakeWhile_isWhitespace (t : Text) : (t.rtakeWhile isWhitespace).all isWhitespace = true :=
  List.all_eq_true.2 fun _ hc => List.mem_rtakeWhile_imp hc

theorem trim_trim (raw : Text) : trim (trim raw) = trim raw := by
  conv_rhs => rw [← takeWhile_append_trim_append_rtakeWhile raw]
  rw [trim_append_right (all_rtakeWhile_isWhitespace _), trim_append_left (all_takeWhile_isWhitespace _)]

/-- Every check of the Normalizer sees the trimmed text only (rule R59). -/
theorem normalizeText_congr {raw raw' : Text} (h : trim raw = trim raw') (kind : RepresentationKind) (W : Nat)
    (hW : 1 ≤ W) : normalizeText raw kind W hW = normalizeText raw' kind W hW := by
  cases kind with
  | binary => simp only [normalizeText, normBin, h]
  | decimal => simp only [normalizeText, normDec, h]

end Sys2Proof.Machine
end

section
/-! PROOFS. The cause of each error kind (rule R62): what has to hold of the trimmed text, and that the Normalizer
reports the kind exactly then. -/

namespace Sys2Proof.Machine

theorem isBinaryDigit_iff (c : Char) : isBinaryDigit c = true ↔ c = '0' ∨ c = '1' := by
  simp only [isBinaryDigit, Bool.or_eq_true, beq_iff_eq, ← Char.toNat_inj]
  rfl

theorem isDecimalDigit_iff (c : Char) : isDecimalDigit c = true ↔ 48 ≤ c.toNat ∧ c.toNat ≤ 57 := by
  simp [isDecimalDigit]

theorem not_isBinaryDigit_iff (c : Char) : ¬ isBinaryDigit c = true ↔ c ≠ '0' ∧ c ≠ '1' := by
  rw [isBinaryDigit_iff, not_or]

theorem not_isDecimalDigit_iff (c : Char) : ¬ isDecimalDigit c = true ↔ c.toNat < 48 ∨ 57 < c.toNat := by
  rw [isDecimalDigit_iff]
  omega

/-- The alphabet of a representation (rules R60, R61). -/
def isDigitOf : RepresentationKind → Char → Bool
  | .binary => isBinaryDigit
  | .decimal => isDecimalDigit

/-- No whitespace character is in an alphabet: both begin at U+0030, above all whitespace. -/
theorem isDigitOf_eq_false_of_isWhitespace (kind : RepresentationKind) {c : Char} (h : isWhitespace c = true) :
    isDigitOf kind c = false := by
  have hlow := (isWhitespace_iff_toNat c).1 h
  cases kind with
  | binary =>
    simp only [isDigitOf, isBinaryDigit, Bool.or_eq_false_iff, beq_eq_false_iff_ne]
    omega
  | decimal =>
    rw [isDigitOf, ← Bool.not_eq_true, isDecimalDigit_iff]
    omega

/-- What a trimmed text is like where an error kind is the first that applies to it (rule R62). -/
def ErrorCause (kind : RepresentationKind) (W : Nat) (t : Text) : NormalizationError → Prop
  | .emptyOperand => t = []
  | .invalidNumeral => t ≠ [] ∧ t.all (isDigitOf kind) = false
  | .outOfRange => kind = .decimal ∧ t ≠ [] ∧ t.all isDecimalDigit = true ∧ 2 ^ W - 1 < numeralValue 10 t
  | .tooLong => kind = .binary ∧ t.all isBinaryDigit = true ∧ W < t.length

/-- An error kind is reported exactly on its cause: each answer of NORM.BIN and NORM.DEC against each kind. -/
theorem normalizeText_eq_error_iff (kind : RepresentationKind) (W : Nat) (hW : 1 ≤ W) (raw : Text)
    (e : NormalizationError) : normalizeText raw kind W hW = .error e ↔ ErrorCause kind W (trim raw) e := by
  cases kind with
  | binary =>
    rw [normalizeText]
    rcases normBin_cases W hW raw with ⟨h0, ha⟩ | ⟨h0, h1, ha⟩ | ⟨h0, h1, h2, ha⟩ | ⟨h0, h1, h2, ha⟩ <;> rw [ha]
    · cases e <;> simp [ErrorCause, h0]
    · cases e <;> simp [ErrorCause, isDigitOf, h0, h1]
    · cases e <;> simp [ErrorCause, isDigitOf, h0, h1, h2]
    · cases e <;> simp [ErrorCause, isDigitOf, h0, h1, h2]
  | decimal =>
    rw [normalizeText]
    rcases normDec_cases W hW raw with ⟨h0, ha⟩ | ⟨h0, h1, ha⟩ | ⟨h0, h1, h2, ha⟩ | ⟨h0, h1, h2, ha⟩ <;> rw [ha]
    · cases e <;> simp [ErrorCause, h0]
    · cases e <;> simp [ErrorCause, isDigitOf, h0, h1]
    · cases e <;> simp [ErrorCause, isDigitOf, h0, h1, h2]
    · cases e <;> simp [ErrorCause, isDigitOf, h0, h1, Nat.not_lt.2 h2]

/-- Whitespace that trimming leaves in the text is an invalid character (rule R59). -/
theorem normalizeText_of_whitespace_inside {raw : Text} {c : Char} (hc : c ∈ trim raw) (h : isWhitespace c = true)
    (kind : RepresentationKind) (W : Nat) (hW : 1 ≤ W) : normalizeText raw kind W hW = .error .invalidNumeral := by
  have hbad : (trim raw).all (isDigitOf kind) = false :=
    List.all_eq_false.2 ⟨c, hc, by simp [isDigitOf_eq_false_of_isWhitespace kind h]⟩
  exact (normalizeText_eq_error_iff kind W hW raw _).2 ⟨List.ne_nil_of_mem hc, hbad⟩

/-- Settles O42: what trimming takes off and leaves by a lemma each, equal outcomes by equal trimmed texts, and the
two errors by their causes. -/
theorem trimmingTakesOffOuterWhitespaceOnly : Obligations.TrimmingTakesOffOuterWhitespaceOnly := by
  refine ⟨fun raw => ?_, fun W hW kind raw pre post hpre hpost => ?_, fun W hW kind raw => ⟨?_, ?_, ?_⟩,
    isWhitespace_iff⟩
  · exact ⟨_, _, (takeWhile_append_trim_append_rtakeWhile raw).symm, all_takeWhile_isWhitespace raw,
      all_rtakeWhile_isWhitespace _, fun _ h => isWhitespace_eq_false_of_head?_trim h,
      fun _ h => isWhitespace_eq_false_of_getLast?_trim h⟩
  · exact normalizeText_congr ((trim_append_right hpost _).trans (trim_append_left hpre raw)) kind W hW
  · exact normalizeText_congr (trim_trim raw).symm kind W hW
  · exact (normalizeText_eq_error_iff kind W hW raw .emptyOperand).2
  · rintro ⟨c, hc, h⟩
    exact normalizeText_of_whitespace_inside hc h kind W hW

/-- Settles O43: each clause is `normalizeText_eq_error_iff` at its kind, with the alphabets spelled out. -/
theorem eachErrorHasItsExactCause : Obligations.EachErrorHasItsExactCause := by
  refine ⟨fun W hW raw => ?_, rfl, rfl, rfl, rfl⟩
  intro t
  have hlen : t = [] ↔ t.length = 0 := List.length_eq_zero_iff.symm
  simp only [ne_eq, normalizeText_eq_error_iff, ErrorCause]
  refine ⟨fun _ => hlen, ?_, ?_, ?_, ?_, ?_, ?_⟩
  · simp only [isDigitOf, List.all_eq_false, not_isBinaryDigit_iff, ne_eq, ← hlen, t]
  · simp only [isDigitOf, List.all_eq_false, not_isDecimalDigit_iff, ← hlen, t]
  · simp only [List.all_eq_true, isDecimalDigit_iff, ← hlen, true_and, t]
  · simp only [List.all_eq_true, isBinaryDigit_iff, true_and, t]
  · simp
  · simp

end Sys2Proof.Machine
end

section
/-! PROOFS. Subtraction as the host makes it (rule R71): the pattern of `-y`, and what adding it does. -/

namespace Sys2Proof.Machine

/-- The pattern the host computes is the two's-complement negation, for `y = 0` too, where `2^W` wraps to 0. -/
theorem negPattern_eq_neg {W : Nat} (y : Operand W) : negPattern y = -y :=
  BitVec.eq_of_toNat_eq ((BitVec.toNat_ofNat _ _).trans (BitVec.toNat_neg y).symm)

theorem val_negPattern {W : Nat} {y : Operand W} (hy : val y ≠ 0) : val (negPattern y) = 2 ^ W - val y :=
  (BitVec.toNat_ofNat _ _).trans (Nat.mod_eq_of_lt (Nat.sub_lt (Nat.two_pow_pos W) (Nat.pos_of_ne_zero hy)))

/-- Adding the pattern of `-y` subtracts `y`. -/
theorem sumBits_negPattern {W : Nat} (x y : Operand W) : sumBits x (negPattern y) = x - y := by
  rw [sumBits_eq_add, negPattern_eq_neg, BitVec.sub_eq_add_neg]

/-- The carry out of `x + (2^W - y)` says that no borrow is needed. It needs `y ≠ 0`: adding 0 never carries. -/
theorem carryInto_width_negPattern_iff {W : Nat} (x : Operand W) {y : Operand W} (hy : val y ≠ 0) :
    carryInto x (negPattern y) W = true ↔ val y ≤ val x := by
  have hlt := val_lt y
  rw [carryInto_width_iff, val_negPattern hy]
  omega

/-- Settles O40: the pattern, the difference and the carry by a lemma each, the quoted scenario by evaluation. -/
theorem hostSubtractionSetsCarryWhereNoBorrow : Obligations.HostSubtractionSetsCarryWhereNoBorrow :=
  ⟨fun _ _ x y _ hy => ⟨val_negPattern hy, sumBits_negPattern x y, carryInto_width_negPattern_iff x hy⟩,
    by decide, by decide⟩

end Sys2Proof.Machine
end

section
/-! PROOFS. Decoding and encoding are inverse to each other (rules R34, R37, R38). -/

namespace Sys2Proof.Machine

section
variable {W : Nat} (m : Mode) (a b : Operand W)

@[simp] theorem reqMode_packReq : reqMode (packReq m a b) = m := by
  rw [reqMode, Laws.packReq_mode_bit, ofBit_toBit]

@[simp] theorem reqA_packReq : reqA (packReq m a b) = a := by
  refine BitVec.eq_of_getLsbD_eq fun i hi => ?_
  rw [reqA, BitVec.getLsbD_extractLsb', packReq_getLsbD_add m a b hi, decide_eq_true hi, Bool.true_and]

@[simp] theorem reqB_packReq : reqB (packReq m a b) = b := by
  refine BitVec.eq_of_getLsbD_eq fun i hi => ?_
  rw [reqB, BitVec.getLsbD_extractLsb', Nat.zero_add, packReq_getLsbD m a b hi, decide_eq_true hi, Bool.true_and]

end

/-- A request word is the packing of its own three fields: each bit lies in one of them. -/
theorem packReq_fields {W : Nat} (req : BitVec (2 * W + 1)) : packReq (reqMode req) (reqA req) (reqB req) = req := by
  refine BitVec.eq_of_getLsbD_eq fun i hi => ?_
  rcases Nat.lt_trichotomy i (2 * W) with hlt | rfl | hgt
  · rcases Nat.lt_or_ge i W with hB | hA
    · rw [packReq_getLsbD _ _ _ hB, reqB, BitVec.getLsbD_extractLsb', Nat.zero_add, decide_eq_true hB, Bool.true_and]
    · obtain ⟨k, rfl⟩ := Nat.exists_eq_add_of_le hA
      have hk : k < W := by omega
      rw [packReq_getLsbD_add _ _ _ hk, reqA, BitVec.getLsbD_extractLsb', decide_eq_true hk, Bool.true_and]
  · rw [Laws.packReq_mode_bit, reqMode, toBit_ofBit]
  · omega

/-- The decoder undoes the encoder, row by row. -/
theorem decodeReq_encode (i : Instr) : decodeReq i.width (encode i) = i := by
  cases i with
  | addu w a b => simp [encode, decodeReq, Instr.width, instrOf]
  | adds w a b => simp [encode, decodeReq, Instr.width, instrOf]

/-- The encoder undoes the decoder. -/
theorem encodeWord_decodeReq {W : Nat} (req : BitVec (2 * W + 1)) :
    encodeWord (decodeReq W req) = ⟨2 * W + 1, req⟩ := by
  rw [decodeReq, encodeWord_instrOf, packReq_fields]

/-- The length of a request word fixes its width, so one word decodes to one invocation. -/
theorem decodeReq_eq_of_word_eq {V W : Nat} {r : BitVec (2 * V + 1)} {q : BitVec (2 * W + 1)}
    (h : (⟨2 * V + 1, r⟩ : RequestWord) = ⟨2 * W + 1, q⟩) : decodeReq V r = decodeReq W q := by
  injection h with hlen hbits
  obtain rfl : V = W := by omega
  rw [eq_of_heq hbits]

theorem encodeWord_eq_iff {W : Nat} (req : BitVec (2 * W + 1)) (j : Instr) :
    encodeWord j = ⟨2 * W + 1, req⟩ ↔ j = decodeReq W req := by
  constructor
  · intro h
    exact (decodeReq_encode j).symm.trans (decodeReq_eq_of_word_eq h)
  · rintro rfl
    exact encodeWord_decodeReq req

/-- Settles O5: the request word of a well-formed invocation has the session's length, and `decodeReq_encode`. -/
theorem encodedInvocationDecodesToItself : Obligations.EncodedInvocationDecodesToItself := by
  intro W i hwf
  obtain ⟨hW, rfl⟩ := (wf_iff W i).1 hwf
  exact (decodeWord_ok_iff _ _ _).2 ⟨hW, rfl, (decodeReq_encode i).symm⟩

/-- Settles O6: the invocation is the decoded one, and `encodeWord_eq_iff` says that no other has this word. -/
theorem everyRequestWordIsExactlyOneInvocation : Obligations.EveryRequestWordIsExactlyOneInvocation := by
  intro W req hW
  have hdec : decodeWord W ⟨2 * W + 1, req⟩ = .ok (decodeReq W req) := (decodeWord_ok_iff _ _ _).2 ⟨hW, rfl, rfl⟩
  exact ⟨decodeReq W req, decodeWord_wf hdec, hdec, encodeWord_eq_iff req⟩

/-- Settles O1, each word by evaluation. -/
theorem tableWordsDecodeToTheirInvocations : Obligations.TableWordsDecodeToTheirInvocations := by
  unfold Obligations.TableWordsDecodeToTheirInvocations
  decide

end Sys2Proof.Machine
end

section
/-! PROOFS. Reading a response word (rules R35, R49, R50). -/

namespace Sys2Proof.Machine

theorem extractLsb'_rspWord {W : Nat} (r : Result W) : r.rspWord.extractLsb' 0 W = r.resultBits := by
  refine BitVec.eq_of_getLsbD_eq fun i hi => ?_
  rw [BitVec.getLsbD_extractLsb', Nat.zero_add, rspWord_result_bit r hi, decide_eq_true hi, Bool.true_and]

/-- A host reads the bits and the flags as they were packed, and the decimal values from the bits and the mode. -/
theorem readRsp_rspWord {W : Nat} (m : Mode) (r : Result W) :
    readRsp m r.rspWord =
      { r with unsignedValue := unsignedReading r.resultBits, signedValue := signedReading m r.resultBits } := by
  obtain ⟨ho, hs, hz, hc⟩ := rspWord_flag_bits r
  rw [readRsp, extractLsb'_rspWord, ho, hs, hz, hc]

/-- Settles O8: a Result of `add` has the decimal values that a host reads. -/
theorem responseWordReadsBackToItsResult : Obligations.ResponseWordReadsBackToItsResult := by
  intro W m a b
  rw [readRsp_rspWord]
  rfl

end Sys2Proof.Machine
end

section
/-! PROOFS. One step and one invocation by cases (rules R5, R38, R51, R52): each outcome with the condition on which it
comes, its frame, and its refusals. -/

namespace Sys2Proof.Machine

/-- An invocation on operands of the session's width completes. -/
theorem exec_instrOf {s : State} (hW : 1 ≤ s.width) (m : Mode) (a b : Operand s.width) :
    exec (instrOf s.width m a b) s = .next (s.respond (engineAdd m a b)) := by
  cases m <;> simp [instrOf, exec, execAddu, execAdds, invoke, hW]

theorem step_of_request_none {s : State} (h : s.request = none) : step s = .next s.idle := by
  simp [step, fetchDecode, h]

theorem step_of_decode_ok {s : State} {r : RequestWord} {i : Instr} (hr : s.request = some r)
    (hi : decodeWord s.width r = .ok i) : step s = exec i s := by
  simp [step, fetchDecode, hr, hi]

theorem step_of_decode_error {s : State} {r : RequestWord} {e : DecodeError} (hr : s.request = some r)
    (he : decodeWord s.width r = .error e) : step s = .refused (refusalOf e) := by
  simp [step, fetchDecode, hr, he]

/-- A request word of the session is evaluated by `add` on its own fields. -/
theorem step_of_request_word {s : State} {r : RequestWord} (hW : 1 ≤ s.width) (hr : s.request = some r)
    (h : r.len = 2 * s.width + 1) :
    step s = .next (s.respond
      (engineAdd (reqMode (r.bits.cast h)) (reqA (r.bits.cast h)) (reqB (r.bits.cast h)))) := by
  rw [step_of_decode_ok hr ((decodeWord_ok_iff _ _ _).2 ⟨hW, h, rfl⟩)]
  exact exec_instrOf hW _ _ _

/-- Everything a step can answer. -/
theorem step_cases (s : State) :
    (s.request = none ∧ step s = .next s.idle) ∨
    (∃ r, s.request = some r ∧ 1 ≤ s.width ∧ ∃ h : r.len = 2 * s.width + 1, step s = .next (s.respond
      (engineAdd (reqMode (r.bits.cast h)) (reqA (r.bits.cast h)) (reqB (r.bits.cast h))))) ∨
    (∃ r, s.request = some r ∧ 1 ≤ s.width ∧ r.len ≠ 2 * s.width + 1 ∧ step s = .refused .requestLength) ∨
    (∃ r, s.request = some r ∧ ¬ 1 ≤ s.width ∧ step s = .refused .zeroWidth) := by
  cases hr : s.request with
  | none => exact .inl ⟨rfl, step_of_request_none hr⟩
  | some r =>
    by_cases hW : 1 ≤ s.width
    · by_cases h : r.len = 2 * s.width + 1
      · exact .inr (.inl ⟨r, rfl, hW, h, step_of_request_word hW hr h⟩)
      · have he : decodeWord s.width r = .error .requestLength := (decodeWord_error_iff _ _ _).2 (.inr ⟨hW, h, rfl⟩)
        exact .inr (.inr (.inl ⟨r, rfl, hW, h, step_of_decode_error hr he⟩))
    · have he : decodeWord s.width r = .error .zeroWidth := (decodeWord_error_iff _ _ _).2 (.inl ⟨hW, rfl⟩)
      exact .inr (.inr (.inr ⟨r, rfl, hW, step_of_decode_error hr he⟩))

/-- Where a step answers a next state, and which: empty outputs, or the Result of the word on the inputs. -/
theorem step_next_inv {s t : State} (h : step s = .next t) :
    (s.request = none ∧ t = s.idle) ∨
    ∃ r, s.request = some r ∧ 1 ≤ s.width ∧ ∃ hlen : r.len = 2 * s.width + 1, t = s.respond
      (engineAdd (reqMode (r.bits.cast hlen)) (reqA (r.bits.cast hlen)) (reqB (r.bits.cast hlen))) := by
  rcases step_cases s with ⟨hr, hs⟩ | ⟨r, hr, hW, hlen, hs⟩ | ⟨_, _, _, _, hs⟩ | ⟨_, _, _, hs⟩ <;> rw [hs] at h
  · exact .inl ⟨hr, (Host.Outcome.next.inj h).symm⟩
  · exact .inr ⟨r, hr, hW, hlen, (Host.Outcome.next.inj h).symm⟩
  · cases h
  · cases h

/-- Settles O10, by the equations of the two steps that are not refused. -/
theorem stepRunsThePresentedInvocation : Obligations.StepRunsThePresentedInvocation :=
  fun _ => ⟨fun _ _ => step_of_decode_ok, step_of_request_none⟩

/-- Settles O11, by the four cases of a step. -/
theorem stepIsRefusedExactlyWhereNoRequestWordStands : Obligations.StepIsRefusedExactlyWhereNoRequestWordStands := by
  intro s
  rcases step_cases s with ⟨hr, hs⟩ | ⟨r, hr, hW, hlen, hs⟩ | ⟨r, hr, hW, hlen, hs⟩ | ⟨r, hr, hW, hs⟩
  · simp [hs, hr]
  · simp [hs, hr, hW, hlen]
  · simp [hs, hr, hW, hlen, eq_comm]
  · simp [hs, hr, hW, eq_comm]

/-- Settles O12, by the three cases of an invocation. -/
theorem execIsRefusedExactlyOnAWrongWidth : Obligations.ExecIsRefusedExactlyOnAWrongWidth := by
  intro i s e
  rw [exec_eq_invoke]
  rcases invoke_cases i.mode i.width i.operandA i.operandB s with ⟨hW, hw, hi⟩ | ⟨hW, hw, hi⟩ | ⟨hW, hi⟩ <;> rw [hi]
  · simp [hW, hw]
  · simp [hW, hw, eq_comm]
  · simp [hW, eq_comm]

/-- An invocation completes or is refused, and completes exactly where it is well formed (rules R51, R52). -/
theorem exec_cases (i : Instr) (s : State) :
    (i.wf s.width = true ∧ exec i s = .next (s.respond (engineAdd i.mode i.operandA i.operandB))) ∨
    (¬ i.wf s.width = true ∧ ∃ e, exec i s = .refused e) := by
  rw [exec_eq_invoke, wf_iff]
  rcases invoke_cases i.mode i.width i.operandA i.operandB s with ⟨hW, hw, hi⟩ | ⟨_, hw, hi⟩ | ⟨hW, hi⟩
  · exact .inl ⟨⟨hW, hw⟩, hi⟩
  · exact .inr ⟨fun h => hw h.2, _, hi⟩
  · exact .inr ⟨fun h => hW h.1, _, hi⟩

/-- A step answers a next state or is refused. -/
theorem step_next_or_refused (s : State) : (∃ t, step s = .next t) ∨ ∃ e, step s = .refused e := by
  rcases step_cases s with ⟨_, hs⟩ | ⟨_, _, _, _, hs⟩ | ⟨_, _, _, _, hs⟩ | ⟨_, _, _, hs⟩
  · exact .inl ⟨_, hs⟩
  · exact .inl ⟨_, hs⟩
  · exact .inr ⟨_, hs⟩
  · exact .inr ⟨_, hs⟩

/-- Settles O13, by the two cases of an invocation. -/
theorem everyWellFormedInvocationCompletes : Obligations.EveryWellFormedInvocationCompletes := by
  intro i s
  rcases exec_cases i s with ⟨hwf, hi⟩ | ⟨hwf, e, hi⟩
  · exact ⟨⟨fun _ => hwf, fun _ => ⟨_, hi⟩⟩, .inl ⟨_, hi⟩, step_next_or_refused s⟩
  · exact ⟨by simp [hi, hwf], .inr ⟨e, hi⟩, step_next_or_refused s⟩

/-- Settles O14: what completes has handed out a Result and nothing else. -/
theorem anInvocationChangesOnlyTheResult : Obligations.AnInvocationChangesOnlyTheResult := by
  intro i s t h
  obtain ⟨_, rfl⟩ := exec_next_inv h
  exact ⟨rfl, Option.some_ne_none _⟩

/-- A step that answers has handed out a Result or left the outputs empty. -/
theorem step_frame {s t : State} (h : step s = .next t) : t.width = s.width ∧ t.request = s.request := by
  rcases step_next_inv h with ⟨_, rfl⟩ | ⟨_, _, _, _, rfl⟩
  · exact ⟨rfl, rfl⟩
  · exact ⟨rfl, rfl⟩

/-- Settles O15, by the frame of a step. -/
theorem aStepWritesNeitherTheWidthNorTheInputs : Obligations.AStepWritesNeitherTheWidthNorTheInputs :=
  fun _ _ => step_frame

/-- Settles O16: the three fields at reset. -/
theorem resetHasDefaultWidthAndNoInvocation : Obligations.ResetHasDefaultWidthAndNoInvocation := rfl

/-- What the decoder of table words accepts is what the word decodes to at the default width. -/
theorem decodeWord_of_decodeTableWord {nbits w : Nat} {i : Instr} (h : decodeTableWord nbits w = some i) :
    decodeWord Config.defaultWidth (wordOfNat Config.defaultWidth nbits w) = .ok i := by
  unfold decodeTableWord at h
  split at h
  · next j hj => rw [hj, Option.some.inj h]
  · cases h

/-- Settles O24: the word on the inputs is the one that `decodeTableWord` reads. -/
theorem tableWordRunsAsTheFirstInvocation : Obligations.TableWordRunsAsTheFirstInvocation := by
  intro nbits w i h
  exact step_of_decode_ok rfl (decodeWord_of_decodeTableWord h)

end Sys2Proof.Machine
end

section
/-! PROOFS. A step reads the width and the inputs only, so no invocation influences a later one (rules R10, R22, R29),
and evaluating again changes nothing (rules R27, R51). -/

namespace Sys2Proof.Machine

theorem idle_congr {s t : State} (hw : s.width = t.width) (hr : s.request = t.request) : s.idle = t.idle := by
  simp [State.idle, hw, hr]

theorem respond_congr {s t : State} (hw : s.width = t.width) (hr : s.request = t.request) {W : Nat} (r : Result W) :
    s.respond r = t.respond r := by
  simp [State.respond, hw, hr]

theorem exec_congr {s t : State} (hw : s.width = t.width) (hr : s.request = t.request) (i : Instr) :
    exec i s = exec i t := by
  rw [exec_eq_invoke, exec_eq_invoke, invoke, invoke, hw, respond_congr hw hr]

/-- Neither what is fetched nor what an invocation answers depends on the Result shown. -/
theorem step_congr {s t : State} (hw : s.width = t.width) (hr : s.request = t.request) : step s = step t := by
  simp only [step, fetchDecode, hw, hr, idle_congr hw hr, exec_congr hw hr]

/-- Settles O21, by `step_congr`. -/
theorem aStepDependsOnlyOnWidthAndInputs : Obligations.AStepDependsOnlyOnWidthAndInputs :=
  fun _ _ => step_congr

/-- Settles O20: the earlier step has left the width as it was. -/
theorem noEarlierInvocationInfluencesALaterOne : Obligations.NoEarlierInvocationInfluencesALaterOne := by
  intro s t r q h
  obtain ⟨hw, _⟩ := step_frame h
  exact step_congr hw rfl

/-- Going on after a step, refused or not, is going on in a session of the same width. -/
@[simp] theorem afterStep_width (s : State) : s.afterStep.width = s.width := by
  unfold State.afterStep
  split
  · next t h => exact (step_frame h).1
  · rfl
  · rfl

/-- Settles O23, by induction over the words, for every session. -/
theorem everyInvocationOfASequenceAnswersAlone : Obligations.EveryInvocationOfASequenceAnswersAlone := by
  intro s words
  induction words generalizing s with
  | nil => rfl
  | cons r rest ih =>
    have hlater (q : RequestWord) : step ((s.present r).afterStep.present q) = step (s.present q) :=
      step_congr (afterStep_width _) rfl
    simp only [runWords, List.map_cons, ih, hlater]

theorem settled_idle {s : State} (h : s.request = none) : s.idle.settled := by
  simp [State.settled, h]

theorem settled_respond_engineAdd {s : State} {r : RequestWord} (hr : s.request = some r)
    (h : r.len = 2 * s.width + 1) :
    (s.respond (engineAdd (reqMode (r.bits.cast h)) (reqA (r.bits.cast h)) (reqB (r.bits.cast h)))).settled := by
  simp only [State.settled, respond_request, hr]
  exact ⟨h, rfl⟩

/-- What a step answers has the outputs of its own inputs (rule R10). -/
theorem step_settles {s t : State} (h : step s = .next t) : t.settled := by
  rcases step_next_inv h with ⟨hr, rfl⟩ | ⟨r, hr, _, hlen, rfl⟩
  · exact settled_idle hr
  · exact settled_respond_engineAdd hr hlen

/-- Settles O19: the outputs by `step_settles`, and the second step reads what the first one read. -/
theorem everyStepSettlesTheOutputs : Obligations.EveryStepSettlesTheOutputs := by
  intro s t h
  obtain ⟨hw, hr⟩ := step_frame h
  exact ⟨step_settles h, (step_congr hw hr).trans h⟩

/-- The input ports are driven exactly by a word of the request length, and carry its fields (rules R23, R34). -/
theorem inPorts_eq_some_iff (s : State) (p : InPorts s.width) :
    s.inPorts = some p ↔ ∃ r, s.request = some r ∧ ∃ h : r.len = 2 * s.width + 1, p = reqPorts (r.bits.cast h) := by
  unfold State.inPorts
  cases s.request with
  | none => simp
  | some r =>
    by_cases h : r.len = 2 * s.width + 1
    · simp [h, eq_comm]
    · simp [h]

/-- The combinational function of a word's ports gives the output ports of its Result. -/
theorem combinational_reqPorts {W : Nat} (hW : 1 ≤ W) (req : BitVec (2 * W + 1)) :
    combinational hW (reqPorts req) = (engineAdd (reqMode req) (reqA req) (reqB req)).outPorts := by
  rw [combinational, reqPorts, ofBit_toBit]

/-- Settles O22: driven ports are those of a request word, which the step evaluates. -/
theorem outputPortsAreAFunctionOfInputPorts : Obligations.OutputPortsAreAFunctionOfInputPorts := by
  intro s p hW hp
  obtain ⟨r, hr, hlen, rfl⟩ := (inPorts_eq_some_iff s p).1 hp
  exact ⟨_, step_of_request_word hW hr hlen, (combinational_reqPorts hW _).symm, engineAdd_signedValid _ _ _⟩

end Sys2Proof.Machine
end

section
/-! PROOFS. The session's invariant (rules R5, R17, R45, R46, R48 to R50, R54): a Result of `add` is consistent, and
every step keeps the invariant. -/

namespace Sys2Proof.Machine

theorem carryInto_width_eq_maj {W : Nat} (hW : 1 ≤ W) (a b : Operand W) :
    carryInto a b W = maj (msb a) (msb b) (carryIntoMsb a b) := carryOutOfMsb_eq_maj hW a b

/-- Signed overflow is a matter of the MSB's full adder alone: its carry out differs from its carry in (rule R48). -/
theorem overflowFlag_signed_eq_maj {W : Nat} (hW : 1 ≤ W) (a b : Operand W) :
    overflowFlag .signed a b = (carryIntoMsb a b ^^ maj (msb a) (msb b) (carryIntoMsb a b)) := by
  rw [← carryOutOfMsb_eq_maj hW]
  rfl

/-- The two ways the MSB's full adder can overflow leave different values of C and S: carry in without carry out needs
two bits 0, carry out without carry in two bits 1 (rule R54). -/
theorem carry_ne_sum_of_overflow (p q c : Bool) (h : (c ^^ maj p q c) = true) : maj p q c ≠ fullSum p q c := by
  revert p q c
  decide

/-- O = 1 only where C and S differ, in both modes. -/
theorem carry_ne_sign_of_overflowFlag {W : Nat} (hW : 1 ≤ W) {m : Mode} {a b : Operand W}
    (h : overflowFlag m a b = true) : carryInto a b W ≠ msb (sumBits a b) := by
  cases m with
  | unsigned => cases h
  | signed =>
    rw [msb_sumBits hW, carryInto_width_eq_maj hW]
    rw [overflowFlag_signed_eq_maj hW] at h
    exact carry_ne_sum_of_overflow _ _ _ h

/-- The fields of every Result of `add` fit together. -/
theorem engineAdd_consistent {W : Nat} (hW : 1 ≤ W) (m : Mode) (a b : Operand W) :
    (engineAdd m a b).consistent = true := by
  have hsigned : (signedReading m (sumBits a b) = none ∧ overflowFlag m a b = false) ∨
      signedReading m (sumBits a b) = some (sval (sumBits a b)) := by
    cases m with
    | unsigned => exact .inl ⟨rfl, rfl⟩
    | signed => exact .inr rfl
  have hO : overflowFlag m a b = false ∨ carryInto a b W ≠ msb (sumBits a b) := by
    cases h : overflowFlag m a b with
    | false => exact .inl rfl
    | true => exact .inr (carry_ne_sign_of_overflowFlag hW h)
  simp [Result.consistent, unsignedReading, signFlag, hsigned, hO]

theorem inv_idle {s : State} (hW : 1 ≤ s.width) : s.idle.inv = true := by
  simp [State.inv, hW]

theorem inv_respond_engineAdd {s : State} (hW : 1 ≤ s.width) (m : Mode) (a b : Operand s.width) :
    (s.respond (engineAdd m a b)).inv = true := by
  simp [State.inv, hW, engineAdd_consistent hW]

/-- Settles O17: the default width is legal and no Result is shown. -/
theorem resetMeetsTheInvariant : Obligations.ResetMeetsTheInvariant := inv_idle (s := State.reset) (by decide)

/-- Settles O18: a step keeps the width legal, and the outputs it leaves are empty or a Result of `add`. -/
theorem everyStepKeepsTheInvariant : Obligations.EveryStepKeepsTheInvariant := by
  intro s t hinv h
  have hW : 1 ≤ s.width := by
    rw [State.inv, Bool.and_eq_true, legalWidth_iff] at hinv
    exact hinv.1
  rcases step_next_inv h with ⟨_, rfl⟩ | ⟨_, _, _, _, rfl⟩
  · exact inv_idle hW
  · exact inv_respond_engineAdd hW _ _ _

end Sys2Proof.Machine
end

section
/-! PROOFS. The pseudocode of ADDU and ADDS (rules R55, R56). -/

namespace Sys2Proof.Machine

/-- Each result bit and the next carry are those of one full adder of the chain (rule R41). -/
theorem sumBits_full_adder {W : Nat} (a b : Operand W) {i : Nat} (hi : i < W) :
    (sumBits a b).getLsbD i = ((a.getLsbD i ^^ b.getLsbD i) ^^ carryInto a b i) ∧
      carryInto a b (i + 1) =
        ((a.getLsbD i && b.getLsbD i) || (a.getLsbD i && carryInto a b i) || (b.getLsbD i && carryInto a b i)) := by
  rw [sumBits_getLsbD, decide_eq_true hi, Bool.true_and]
  exact ⟨rfl, rfl⟩

/-- The signed reading with its cases in the order of rule R56. -/
theorem sval_eq_ite {W : Nat} (v : Operand W) :
    sval v = if v.getLsbD (W - 1) = false then (v.toNat : Int) else -(((~~~v).toNat : Int) + 1) := by
  cases h : msb v with
  | false => rw [sval_of_msb_false h, if_pos (show v.getLsbD (W - 1) = false from h), val]
  | true => rw [sval_of_msb_true h, if_neg (by rw [show v.getLsbD (W - 1) = true from h]; decide), val]

/-- Settles O25: the carry chain is `carryInto`, and the other fields are their own formulas. -/
theorem adduCompletesAsItsPseudocodeSays : Obligations.AdduCompletesAsItsPseudocodeSays := by
  intro s a b hW
  exact ⟨carryInto a b, engineAdd .unsigned a b, exec_instrOf hW .unsigned a b, rfl,
    fun _ hi => sumBits_full_adder a b hi, rfl, rfl, rfl, rfl, rfl, rfl, rfl⟩

/-- Settles O26, as for ADDU, with the signed value by `sval_eq_ite`. -/
theorem addsCompletesAsItsPseudocodeSays : Obligations.AddsCompletesAsItsPseudocodeSays := by
  intro s a b hW
  exact ⟨carryInto a b, engineAdd .signed a b, exec_instrOf hW .signed a b, rfl,
    fun _ hi => sumBits_full_adder a b hi, rfl, rfl, rfl, rfl, rfl, congrArg some (sval_eq_ite _), rfl⟩

end Sys2Proof.Machine
end

section
/-! PROOFS. What O = 1 means for the true signed sum `T` (rule R54), and the signed value (rules R50, R54). -/

namespace Sys2Proof.Machine

/-- The full adder at the MSB, whose two operand bits weigh negatively: where it does not overflow, its carry and sum
bit keep the weight; else they lose or gain it once, as the operand bits are 1 or 0. -/
theorem toNat_add_sub_eq_ite (p q c : Bool) :
    ((p.toNat + q.toNat : Nat) : Int) - (maj p q c).toNat - (fullSum p q c).toNat =
      if (c ^^ maj p q c) then (if p then 1 else -1) else 0 := by
  revert p q c
  decide

/-- The signed reading of the result is the true signed sum `T`, brought back by one turn of `2^W` where O = 1. -/
theorem sval_sumBits {W : Nat} (hW : 1 ≤ W) (a b : Operand W) :
    sval (sumBits a b) =
      sval a + sval b + 2 ^ W * (if overflowFlag .signed a b then (if msb a then 1 else -1) else 0) := by
  have hS : msb (sumBits a b) = fullSum (msb a) (msb b) (carryIntoMsb a b) := msb_sumBits hW a b
  rw [overflowFlag_signed_eq_maj hW, ← toNat_add_sub_eq_ite, sval_eq_val_sub_msb, sval_eq_val_sub_msb a,
    sval_eq_val_sub_msb b, val_sumBits_cast, carryInto_width_eq_maj hW, hS]
  push_cast
  ring

/-- Without overflow the signed reading is `T`. -/
theorem sval_sumBits_of_no_overflow {W : Nat} (hW : 1 ≤ W) {a b : Operand W} (h : overflowFlag .signed a b = false) :
    sval (sumBits a b) = sval a + sval b := by
  simp [sval_sumBits hW, h]

/-- Overflow of two operands with MSB 0 loses one turn. -/
theorem sval_sumBits_of_positive_overflow {W : Nat} (hW : 1 ≤ W) {a b : Operand W}
    (h : overflowFlag .signed a b = true) (ha : msb a = false) : sval (sumBits a b) = sval a + sval b - 2 ^ W := by
  simp [sval_sumBits hW, h, ha, sub_eq_add_neg]

/-- Overflow of two operands with MSB 1 gains one turn. -/
theorem sval_sumBits_of_negative_overflow {W : Nat} (hW : 1 ≤ W) {a b : Operand W}
    (h : overflowFlag .signed a b = true) (ha : msb a = true) : sval (sumBits a b) = sval a + sval b + 2 ^ W := by
  simp [sval_sumBits hW, h, ha]

/-- `T` against the signed range: it is in range without overflow, above it where both operands have MSB 0, and below
it where both have MSB 1. -/
theorem signed_sum_range {W : Nat} (hW : 1 ≤ W) (a b : Operand W) :
    (overflowFlag .signed a b = false ∧ -2 ^ (W - 1) ≤ sval a + sval b ∧ sval a + sval b ≤ 2 ^ (W - 1) - 1) ∨
    (overflowFlag .signed a b = true ∧ msb a = false ∧ 2 ^ (W - 1) - 1 < sval a + sval b) ∨
    (overflowFlag .signed a b = true ∧ msb a = true ∧ sval a + sval b < -2 ^ (W - 1)) := by
  have hlow := neg_two_pow_le_sval (sumBits a b)
  have hhigh := sval_lt_two_pow (sumBits a b)
  have hhalf := mul_pow_sub_one (n := W) (by omega) (2 : Int)
  cases h : overflowFlag .signed a b with
  | false =>
    rw [sval_sumBits_of_no_overflow hW h] at hlow hhigh
    exact .inl ⟨rfl, hlow, Int.le_sub_one_of_lt hhigh⟩
  | true =>
    cases ha : msb a with
    | false =>
      rw [sval_sumBits_of_positive_overflow hW h ha] at hlow
      exact .inr (.inl ⟨rfl, rfl, by omega⟩)
    | true =>
      rw [sval_sumBits_of_negative_overflow hW h ha] at hhigh
      exact .inr (.inr ⟨rfl, rfl, by omega⟩)

/-- O = 1 says that the true signed sum does not fit (rule R54, item 3). -/
theorem overflowFlag_signed_iff {W : Nat} (hW : 1 ≤ W) (a b : Operand W) :
    overflowFlag .signed a b = true ↔ sval a + sval b < -2 ^ (W - 1) ∨ 2 ^ (W - 1) - 1 < sval a + sval b := by
  rcases signed_sum_range hW a b with ⟨h, hlow, hhigh⟩ | ⟨h, _, hhigh⟩ | ⟨h, _, hlow⟩
  · simp [h, hlow, Int.lt_of_le_sub_one hhigh]
  · simp [h, hhigh]
  · simp [h, hlow]

/-- The MSB's full adder overflows exactly where its operand bits agree and its sum bit differs from them. -/
theorem overflow_iff_operand_bits (p q c : Bool) :
    (c ^^ maj p q c) = true ↔ p = q ∧ fullSum p q c ≠ p := by
  revert p q c
  decide

/-- O = 1 says that the operands have one sign bit and the result the other (rule R54, item 2). -/
theorem overflowFlag_signed_iff_msb {W : Nat} (hW : 1 ≤ W) (a b : Operand W) :
    overflowFlag .signed a b = true ↔ msb a = msb b ∧ msb (sumBits a b) ≠ msb a := by
  rw [overflowFlag_signed_eq_maj hW, overflow_iff_operand_bits, msb_sumBits hW]
  rfl

/-- The true signed sum of two operands lies in `[-2^W, 2^W - 2]`. -/
theorem signed_sum_bounds {W : Nat} (hW : 1 ≤ W) (a b : Operand W) :
    -2 ^ W ≤ sval a + sval b ∧ sval a + sval b ≤ 2 ^ W - 2 := by
  have halow := neg_two_pow_le_sval a
  have hahigh := sval_lt_two_pow a
  have hblow := neg_two_pow_le_sval b
  have hbhigh := sval_lt_two_pow b
  rw [← mul_pow_sub_one (n := W) (by omega) (2 : Int)]
  omega

/-- Where two operands of one sign bit overflow, C is that bit and S the other one. -/
theorem carry_sign_of_overflow {W : Nat} (hW : 1 ≤ W) {a b : Operand W} (h : overflowFlag .signed a b = true) {p : Bool}
    (ha : msb a = p) (hb : msb b = p) : carryInto a b W = p ∧ msb (sumBits a b) = !p := by
  have hS : msb (sumBits a b) = !p := by
    obtain ⟨_, hne⟩ := (overflowFlag_signed_iff_msb hW a b).1 h
    exact Bool.eq_not_of_ne (ha ▸ hne)
  have hC := overflowFlag_signed_eq hW a b
  rw [h, hS, ha, hb] at hC
  refine ⟨?_, hS⟩
  cases p <;> simpa using hC

/-- Settles O37: the four ways to say O = 1 and the readings of the sum, a lemma each. -/
theorem signedOverflowLaws : Obligations.SignedOverflowLaws := by
  intro W a b hW r T
  have hmsb := overflowFlag_signed_iff_msb hW a b
  refine ⟨signed_sum_bounds hW a b, Iff.rfl, hmsb, overflowFlag_signed_iff hW a b,
    iff_of_eq (congrArg (· = true) (overflowFlag_signed_eq hW a b)), fun h => ?_, fun h ha hb => ?_,
    fun h ha hb => ?_, fun hne => ?_⟩
  · exact congrArg some (sval_sumBits_of_no_overflow hW h)
  · obtain ⟨hC, hS⟩ := carry_sign_of_overflow hW h ha hb
    exact ⟨hC, hS, congrArg some (sval_sumBits_of_positive_overflow hW h ha)⟩
  · obtain ⟨hC, hS⟩ := carry_sign_of_overflow hW h ha hb
    exact ⟨hC, hS, congrArg some (sval_sumBits_of_negative_overflow hW h ha)⟩
  · exact Bool.eq_false_iff.2 fun h => hne (hmsb.1 h).1

end Sys2Proof.Machine
end

section
/-! PROOFS. The whole Results of ADDU and ADDS in integers alone (rules R44 to R50, R53, R54). -/

namespace Sys2Proof.Machine

/-- The signed value in integers alone. -/
theorem sval_sumBits_eq_ite {W : Nat} (hW : 1 ≤ W) (a b : Operand W) :
    sval (sumBits a b) =
      if sval a + sval b < -2 ^ (W - 1) then sval a + sval b + 2 ^ W
      else if 2 ^ (W - 1) - 1 < sval a + sval b then sval a + sval b - 2 ^ W
      else sval a + sval b := by
  have hpos : (0 : Int) < 2 ^ (W - 1) := by positivity
  rcases signed_sum_range hW a b with ⟨h, hlow, hhigh⟩ | ⟨h, ha, hhigh⟩ | ⟨h, ha, hlow⟩
  · rw [if_neg (by omega), if_neg (by omega), sval_sumBits_of_no_overflow hW h]
  · rw [if_neg (by omega), if_pos hhigh, sval_sumBits_of_positive_overflow hW h ha]
  · rw [if_pos hlow, sval_sumBits_of_negative_overflow hW h ha]

/-- The Result of `add` with the fields that do not depend on the mode in integers alone. -/
theorem engineAdd_in_integers {W : Nat} (m : Mode) (a b : Operand W) :
    engineAdd m a b =
      { resultBits := bitsOf W (val a + val b)
        carry := decide (2 ^ W ≤ val a + val b)
        zero := decide ((val a + val b) % 2 ^ W = 0)
        sign := ((val a + val b) % 2 ^ W).testBit (W - 1)
        overflow := overflowFlag m a b
        unsignedValue := (val a + val b) % 2 ^ W
        signedValue := signedReading m (sumBits a b) } := by
  have hC : carryInto a b W = decide (2 ^ W ≤ val a + val b) := by
    rw [Bool.eq_iff_iff, decide_eq_true_iff, carryInto_width_iff]
  have hZ : zeroFlag (sumBits a b) = decide ((val a + val b) % 2 ^ W = 0) := by
    rw [Bool.eq_iff_iff, decide_eq_true_iff, zeroFlag_sumBits_iff]
  rw [← hC, ← hZ, ← sumBits_eq_bitsOf, ← signFlag_sumBits, ← val_sumBits]
  rfl

/-- Settles O27, by the fields in integers. -/
theorem adduResultInIntegers : Obligations.AdduResultInIntegers := by
  intro s a b hW
  rw [show Instr.addu s.width a b = instrOf s.width .unsigned a b from rfl, exec_instrOf hW, engineAdd_in_integers]
  rfl

/-- Settles O28, by the fields in integers, with O and the signed value from the range of `T`. -/
theorem addsResultInIntegers : Obligations.AddsResultInIntegers := by
  intro s a b hW
  have hO : overflowFlag .signed a b =
      decide (sval a + sval b < -2 ^ (s.width - 1) ∨ 2 ^ (s.width - 1) - 1 < sval a + sval b) := by
    rw [Bool.eq_iff_iff, decide_eq_true_iff, overflowFlag_signed_iff hW]
  rw [show Instr.adds s.width a b = instrOf s.width .signed a b from rfl, exec_instrOf hW, engineAdd_in_integers,
    ← hO, ← sval_sumBits_eq_ite hW]
  rfl

end Sys2Proof.Machine
end

section
/-! PROOFS. Sums that wrap: the corner cases of ADDU and ADDS (rules R55, R56). -/

namespace Sys2Proof.Machine

/-- Where the sum is written as `C || result`, those are the carry and the result. -/
theorem result_and_carry_of_sum {W : Nat} {a b : Operand W} {c : Bool} {r : Nat} (hr : r < 2 ^ W)
    (h : val a + val b = c.toNat * 2 ^ W + r) : val (sumBits a b) = r ∧ carryInto a b W = c := by
  constructor
  · rw [val_sumBits, h, Nat.mul_add_mod_of_lt hr]
  · rw [Bool.eq_iff_iff, carryInto_width_iff, h]
    cases c with
    | false => simpa using hr
    | true => simp

theorem zeroFlag_eq_false_of_val_ne_zero {W : Nat} {v : Operand W} (h : val v ≠ 0) : zeroFlag v = false :=
  Bool.eq_false_iff.2 fun hz => h ((zeroFlag_iff_val v).1 hz)

/-- Settles O41: the first two sums written as `C || result`, the third by the lemmas on a sum of exactly `2^W`. -/
theorem cornerCasesOfTheTwoInstructions : Obligations.CornerCasesOfTheTwoInstructions := by
  intro W m a b hW r
  have hhalf := mul_pow_sub_one (n := W) (by omega) 2
  have hpos := Nat.two_pow_pos (W - 1)
  refine ⟨fun h => ?_, fun ha hb => ?_, fun ha hb => ?_⟩
  · have halt := val_lt a
    have hblt := val_lt b
    obtain ⟨hR, hC⟩ := result_and_carry_of_sum (a := a) (b := b) (c := true) (r := val a + val b - 2 ^ W) (by omega)
      (by rw [Bool.toNat_true]; omega)
    exact ⟨hR, hC, zeroFlag_eq_false_of_val_ne_zero (by omega)⟩
  · obtain ⟨hR, hC⟩ := result_and_carry_of_sum (a := a) (b := b) (c := true) (r := 2 ^ W - 2) (by omega)
      (by rw [Bool.toNat_true]; omega)
    refine ⟨hR, hC, fun hW2 => ?_⟩
    have hbig : 2 ^ 1 ≤ 2 ^ (W - 1) := Nat.pow_le_pow_right (by decide) (by omega)
    exact ⟨zeroFlag_eq_false_of_val_ne_zero (by omega), (msb_iff _).2 (by omega)⟩
  · have hsum : val a + val b = 2 ^ W := by omega
    have hzero := sumBits_eq_zero_of_val_add hsum
    have hO : overflowFlag m a b = m.toBit := by
      cases m with
      | unsigned => rfl
      | signed => exact (overflowFlag_signed_iff_of_val_add hW hsum).2 ⟨ha, hb⟩
    have hsval : sval (sumBits a b) = 0 := by rw [hzero, sval_of_msb_false (msb_zero W)]; rfl
    exact ⟨(zeroFlag_iff_val _).1 ((zeroFlag_iff _).2 hzero), carryInto_width_of_val_add hsum, (zeroFlag_iff _).2 hzero,
      (congrArg msb hzero).trans (msb_zero W), hO, congrArg some hsval⟩

end Sys2Proof.Machine
end

section
/-! PROOFS. The flag combinations that occur (rule R54): the table from `W = 3` on says that Z excludes S and that
O = 1 needs Signed mode and different C and S; each such combination has operands. -/

namespace Sys2Proof.Machine

/-- What the flags of every invocation satisfy. -/
def FlagsAdmissible (m : Mode) (c z s o : Bool) : Prop :=
  ¬ (z = true ∧ s = true) ∧ (o = true → m = .signed ∧ c ≠ s)

/-- The operands give this flag combination. -/
def HasFlags {W : Nat} (m : Mode) (a b : Operand W) (c z s o : Bool) : Prop :=
  (engineAdd m a b).carry = c ∧ (engineAdd m a b).zero = z ∧ (engineAdd m a b).sign = s ∧
    (engineAdd m a b).overflow = o

/-- From `W = 3` on the table is exactly the admissible combinations. -/
theorem mem_flagTuples_iff (n : Nat) (m : Mode) (c z s o : Bool) :
    (c, z, s, o) ∈ flagTuples m (n + 3) ↔ FlagsAdmissible m c z s o := by
  cases m <;> simp only [flagTuples, FlagsAdmissible] <;> revert c z s o <;> decide

theorem HasFlags.admissible {W : Nat} (hW : 1 ≤ W) {m : Mode} {a b : Operand W} {c z s o : Bool}
    (h : HasFlags m a b c z s o) : FlagsAdmissible m c z s o := by
  obtain ⟨rfl, rfl, rfl, rfl⟩ := h
  refine ⟨fun ⟨hz, hs⟩ => ?_, fun ho => ⟨?_, carry_ne_sign_of_overflowFlag hW ho⟩⟩
  · have hzero : sumBits a b = 0#W := (zeroFlag_iff _).1 hz
    rw [engineAdd_sign, signFlag, hzero, msb_zero] at hs
    cases hs
  · cases m with
    | unsigned => cases ho
    | signed => rfl

/-- C, Z and S do not depend on the mode. -/
theorem HasFlags.unsigned {W : Nat} {a b : Operand W} {c z s o : Bool} (h : HasFlags .signed a b c z s o) :
    HasFlags .unsigned a b c z s false := by
  obtain ⟨hc, hz, hs, _⟩ := h
  exact ⟨hc, hz, hs, rfl⟩

/-- Two sign bits agree exactly where both values lie in one half of the range. -/
theorem msb_eq_msb_iff {W : Nat} (v w : Operand W) : msb v = msb w ↔ (2 ^ (W - 1) ≤ val v ↔ 2 ^ (W - 1) ≤ val w) := by
  rw [Bool.eq_iff_iff, msb_iff, msb_iff]

/-- What two numbers `x`, `y` below `2h`, whose sum is `C || r`, give as flags in Signed mode, `h` the half of the
range: O = 1 where `x` and `y` lie in one half and `r` in the other. -/
def SumHasFlags (h x y r : Nat) (c z s o : Bool) : Prop :=
  x < 2 * h ∧ y < 2 * h ∧ r < 2 * h ∧ x + y = c.toNat * (2 * h) + r ∧ (z = true ↔ r = 0) ∧ (s = true ↔ h ≤ r) ∧
    (o = true ↔ (h ≤ x ↔ h ≤ y) ∧ ¬ (h ≤ r ↔ h ≤ x))

theorem SumHasFlags.hasFlags {W : Nat} (hW : 1 ≤ W) {x y r : Nat} {c z s o : Bool}
    (h : SumHasFlags (2 ^ (W - 1)) x y r c z s o) : HasFlags .signed (bitsOf W x) (bitsOf W y) c z s o := by
  rw [SumHasFlags, mul_pow_sub_one (by omega)] at h
  obtain ⟨hx, hy, hr, hsum, hz, hs, ho⟩ := h
  have hval {n : Nat} (hn : n < 2 ^ W) : val (bitsOf W n) = n := (BitVec.toNat_ofNat _ _).trans (Nat.mod_eq_of_lt hn)
  obtain ⟨hR, hC⟩ := result_and_carry_of_sum (a := bitsOf W x) (b := bitsOf W y) hr (by rw [hval hx, hval hy, hsum])
  refine ⟨hC, Bool.eq_iff_iff.2 ?_, Bool.eq_iff_iff.2 ?_, Bool.eq_iff_iff.2 ?_⟩
  · rw [engineAdd_zero, zeroFlag_iff_val, hR, hz]
  · rw [engineAdd_sign, signFlag, msb_iff, hR, hs]
  · rw [engineAdd_overflow, overflowFlag_signed_iff_msb hW, ne_eq, msb_eq_msb_iff, msb_eq_msb_iff, hR, hval hx,
      hval hy, ho]

/-- From `W = 3` on (half of the range at least 4), numbers for each row of the Signed table. -/
theorem exists_sumHasFlags {h n : Nat} (hh : 4 ≤ h) {c z s o : Bool}
    (hmem : (c, z, s, o) ∈ flagTuples .signed (n + 3)) : ∃ x y r, SumHasFlags h x y r c z s o := by
  simp only [flagTuples, List.mem_cons, List.not_mem_nil, or_false, Prod.mk.injEq] at hmem
  rcases hmem with ⟨rfl, rfl, rfl, rfl⟩ | ⟨rfl, rfl, rfl, rfl⟩ | ⟨rfl, rfl, rfl, rfl⟩ | ⟨rfl, rfl, rfl, rfl⟩ |
    ⟨rfl, rfl, rfl, rfl⟩ | ⟨rfl, rfl, rfl, rfl⟩ | ⟨rfl, rfl, rfl, rfl⟩ | ⟨rfl, rfl, rfl, rfl⟩ | ⟨rfl, rfl, rfl, rfl⟩
  · exact ⟨1, 0, 1, by grind [SumHasFlags]⟩
  · exact ⟨h, 0, h, by grind [SumHasFlags]⟩
  · exact ⟨h - 1, 1, h, by grind [SumHasFlags]⟩
  · exact ⟨0, 0, 0, by grind [SumHasFlags]⟩
  · exact ⟨2 * h - 1, 2, 1, by grind [SumHasFlags]⟩
  · exact ⟨h, 2 * h - 1, h - 1, by grind [SumHasFlags]⟩
  · exact ⟨2 * h - 1, 2 * h - 1, 2 * h - 2, by grind [SumHasFlags]⟩
  · exact ⟨2 * h - 1, 1, 0, by grind [SumHasFlags]⟩
  · exact ⟨h, h, 0, by grind [SumHasFlags]⟩

/-- From `W = 3` on every row of the table occurs; an Unsigned row is a Signed one with O = 0 read in the other mode. -/
theorem exists_hasFlags {n : Nat} {m : Mode} {c z s o : Bool} (hmem : (c, z, s, o) ∈ flagTuples m (n + 3)) :
    ∃ a b : Operand (n + 3), HasFlags m a b c z s o := by
  have hbig : 2 ^ 2 ≤ 2 ^ (n + 3 - 1) := Nat.pow_le_pow_right (by decide) (by omega)
  have hsigned {o : Bool} (hmem : (c, z, s, o) ∈ flagTuples .signed (n + 3)) :
      ∃ a b : Operand (n + 3), HasFlags .signed a b c z s o := by
    obtain ⟨x, y, r, h⟩ := exists_sumHasFlags hbig hmem
    exact ⟨_, _, h.hasFlags (by omega)⟩
  cases m with
  | signed => exact hsigned hmem
  | unsigned =>
    obtain ⟨hzs, ho⟩ := (mem_flagTuples_iff n .unsigned c z s o).1 hmem
    obtain rfl : o = false := Bool.eq_false_iff.2 fun h => nomatch (ho h).1
    obtain ⟨a, b, hab⟩ := hsigned ((mem_flagTuples_iff n .signed c z s false).2 ⟨hzs, nofun⟩)
    exact ⟨a, b, hab.unsigned⟩

/-- The table at `W = 1`, by its four pairs of operands. -/
theorem mem_flagTuples_one_iff (m : Mode) (c z s o : Bool) :
    (c, z, s, o) ∈ flagTuples m 1 ↔ ∃ a b : Operand 1, HasFlags m a b c z s o := by
  unfold HasFlags
  revert c z s o
  cases m <;> decide

/-- The table at `W = 2`, by its sixteen pairs of operands. -/
theorem mem_flagTuples_two_iff (m : Mode) (c z s o : Bool) :
    (c, z, s, o) ∈ flagTuples m 2 ↔ ∃ a b : Operand 2, HasFlags m a b c z s o := by
  unfold HasFlags
  revert c z s o
  cases m <;> decide

/-- Settles O38: the widths 1 and 2 by their operands, and from `W = 3` on the table is the admissible combinations, of
which each one occurs. -/
theorem flagCombinationsThatOccur : Obligations.FlagCombinationsThatOccur := by
  intro W m c z s o hW
  match W, hW with
  | 1, _ => exact mem_flagTuples_one_iff m c z s o
  | 2, _ => exact mem_flagTuples_two_iff m c z s o
  | n + 3, hW =>
    exact ⟨exists_hasFlags, fun ⟨_, _, h⟩ => (mem_flagTuples_iff n m c z s o).2 (HasFlags.admissible hW h)⟩

end Sys2Proof.Machine
end

section
/-! PROOFS. Strings and numerals (rules R7, R60, R61): a vector and its string give each other back, and what a digit
string denotes. -/

namespace Sys2Proof.Machine

theorem str_getElem? {W : Nat} (v : Operand W) {k : Nat} (hk : k < W) :
    (str v)[k]? = some (if v.getLsbD (W - 1 - k) then '1' else '0') := by
  simp [str, hk]

/-- Bit `i` of the vector of a string is its character `W-1-i`. -/
theorem vectorOf_getLsbD {W : Nat} (t : Text) {i : Nat} (hi : i < W) :
    (vectorOf W t).getLsbD i = (t.getD (W - 1 - i) '0' == '1') := by
  rw [vectorOf, collect_getLsbD, decide_eq_true hi, Bool.true_and]

/-- The string of a vector gives the vector back. -/
theorem vectorOf_str {W : Nat} (v : Operand W) : vectorOf W (str v) = v := by
  refine BitVec.eq_of_getLsbD_eq fun i hi => ?_
  rw [vectorOf_getLsbD _ hi, List.getD_eq_getElem?_getD, str_getElem? v (by omega), Option.getD_some,
    show W - 1 - (W - 1 - i) = i by omega]
  cases v.getLsbD i <;> rfl

/-- Settles O35: length and characters by the definition of the string, the vector by `vectorOf_str`. -/
theorem stringOfAVectorIsMostSignificantFirst : Obligations.StringOfAVectorIsMostSignificantFirst :=
  fun _ v => ⟨str_length v, fun _ hk => str_getElem? v hk, vectorOf_str v⟩

/-- A binary text of `W` characters is the string of its vector. -/
theorem str_vectorOf {W : Nat} {t : Text} (hlen : t.length = W) (ht : ∀ c ∈ t, isBinaryDigit c = true) :
    str (vectorOf W t) = t := by
  refine List.ext_getElem? fun k => ?_
  rcases Nat.lt_or_ge k W with hk | hk
  · have hkt : k < t.length := by omega
    rw [str_getElem? _ hk, vectorOf_getLsbD _ (by omega), show W - 1 - (W - 1 - k) = k by omega,
      List.getD_eq_getElem _ _ hkt, List.getElem?_eq_getElem hkt]
    rcases (isBinaryDigit_iff _).1 (ht _ (List.getElem_mem hkt)) with h | h <;> simp [h]
  · rw [List.getElem?_eq_none (by simpa using hk), List.getElem?_eq_none (by omega)]

theorem all_str_isBinaryDigit {W : Nat} (v : Operand W) : (str v).all isBinaryDigit = true := by
  rw [List.all_eq_true]
  intro c hc
  obtain ⟨k, _, rfl⟩ := List.mem_map.1 hc
  split <;> rfl

/-- The model's numeral is the library's reading of a digit string. -/
theorem numeralValue_eq_ofDigitChars (base : Nat) (t : Text) : numeralValue base t = Nat.ofDigitChars base t 0 :=
  Nat.ofDigitChars_eq_foldl.symm

theorem numeralValue_append_singleton (base : Nat) (t : Text) (c : Char) :
    numeralValue base (t ++ [c]) = base * numeralValue base t + digitValue c :=
  List.foldl_concat _ _ _ _

/-- Leading zeros do not count (decision D19). -/
theorem numeralValue_replicate_zero_append (base k : Nat) (t : Text) :
    numeralValue base (List.replicate k '0' ++ t) = numeralValue base t := by
  simp only [numeralValue_eq_ofDigitChars, Nat.ofDigitChars_append, Nat.ofDigitChars_replicate_zero, Nat.mul_zero]

/-- The positional value of a numeral: each digit weighs a power of the base, the last one 1. -/
theorem numeralValue_eq_sum (base : Nat) (t : Text) :
    numeralValue base t =
      ((List.range t.length).map fun j => digitValue (t.getD j '0') * base ^ (t.length - 1 - j)).sum := by
  induction t using List.reverseRecOn with
  | nil => rfl
  | append_singleton t c ih =>
    have hweight : ∀ j ∈ List.range t.length,
        digitValue ((t ++ [c]).getD j '0') * base ^ (t.length - j) =
          base * (digitValue (t.getD j '0') * base ^ (t.length - 1 - j)) := by
      intro j hj
      have hj : j < t.length := List.mem_range.1 hj
      rw [List.getD_append _ _ _ _ hj, show t.length - j = t.length - 1 - j + 1 by omega, Nat.pow_succ]
      ring
    rw [numeralValue_append_singleton, ih, List.length_append, List.length_singleton, List.range_succ, List.map_append,
      List.sum_append, Nat.add_sub_cancel, List.map_congr_left hweight, List.sum_map_mul_left]
    simp

theorem digitValue_ite (b : Bool) : digitValue (if b then '1' else '0') = b.toNat := by cases b <;> rfl

/-- The first `k` characters of a vector's string denote its upper `k` bits: one more character takes one bit more. -/
theorem numeralValue_take_str {W : Nat} (v : Operand W) {k : Nat} (hk : k ≤ W) :
    numeralValue 2 ((str v).take k) = val v / 2 ^ (W - k) := by
  induction k with
  | zero => simp [numeralValue, Nat.div_eq_of_lt (val_lt v)]
  | succ k ih =>
    have hbit : (v.getLsbD (W - 1 - k)).toNat = val v / 2 ^ (W - 1 - k) % 2 := Nat.toNat_testBit _ _
    rw [List.take_add_one, str_getElem? v hk, Option.toList_some, numeralValue_append_singleton, ih (by omega),
      digitValue_ite, hbit, show W - k = W - 1 - k + 1 by omega, show W - (k + 1) = W - 1 - k by omega, Nat.pow_succ,
      ← Nat.div_div_eq_div_mul, Nat.div_add_mod]

/-- In base 2 the string of a vector denotes its value. -/
theorem numeralValue_str {W : Nat} (v : Operand W) : numeralValue 2 (str v) = val v := by
  simpa [List.take_of_length_le] using numeralValue_take_str v le_rfl

end Sys2Proof.Machine
end

section
/-! PROOFS. The written form of an invocation (rule R40): printing and then parsing gives it back. -/

namespace Sys2Proof.Machine

theorem parseMode_mnemonicLetter (m : Mode) : parseMode (mnemonicLetter m) = some m := by cases m <;> rfl

/-- A printed operand is `0b` and exactly `W` binary digits. -/
theorem parseOperand_printOperand {W : Nat} (v : Operand W) : parseOperand W (printOperand v) = some v := by
  rw [printOperand, parseOperand, if_pos ⟨str_length v, all_str_isBinaryDigit v⟩, vectorOf_str]

/-- A printed operand has no comma in it. -/
theorem ne_comma_of_mem_printOperand {W : Nat} (v : Operand W) {c : Char} (hc : c ∈ printOperand v) :
    (c != ',') = true := by
  rcases List.mem_cons.1 hc with rfl | hc
  · decide
  rcases List.mem_cons.1 hc with rfl | hc
  · decide
  · rcases (isBinaryDigit_iff c).1 (List.all_eq_true.1 (all_str_isBinaryDigit v) c hc) with rfl | rfl <;> decide

/-- The text before the first comma is split off. -/
theorem splitOperands_append {x : Text} (hx : ∀ c ∈ x, (c != ',') = true) (y : Text) :
    splitOperands (x ++ ',' :: ' ' :: y) = some (x, y) := by
  have hspan : (x ++ ',' :: ' ' :: y).span (· != ',') = (x, ',' :: ' ' :: y) := by
    rw [List.span_eq_takeWhile_dropWhile, List.takeWhile_append_of_pos hx, List.dropWhile_append_of_pos hx]
    simp
  rw [splitOperands, hspan]
  rfl

/-- Settles O9: the mnemonic, the split at the comma and the two operands, a lemma each. -/
theorem writtenInvocationParsesToItself : Obligations.WrittenInvocationParsesToItself := by
  intro W i hwf
  obtain ⟨hW, rfl⟩ := (wf_iff W i).1 hwf
  simp only [printInstr, parseInstr, parseMode_mnemonicLetter, parseOperand_printOperand,
    splitOperands_append fun _ => ne_comma_of_mem_printOperand i.operandA, Option.bind_eq_bind, Option.bind_some,
    (legalWidth_iff _).2 hW, if_true, instrOf_fields]

end Sys2Proof.Machine
end

section
/-! PROOFS. What the Normalizer returns (rules R60, R61), and its round trips (rule R63). -/

namespace Sys2Proof.Machine

/-- A text without whitespace is left as it is. -/
theorem trim_eq_self {t : Text} (h : ∀ c ∈ t, isWhitespace c = false) : trim t = t := by
  have hkeep {u : Text} (hu : ∀ c ∈ u, isWhitespace c = false) : u.dropWhile isWhitespace = u :=
    List.dropWhile_eq_self_iff.2 fun hpos => by simp [hu _ (List.getElem_mem hpos)]
  rw [trim, hkeep h, hkeep fun c hc => h c (List.mem_reverse.1 hc), List.reverse_reverse]

/-- No digit of either alphabet is whitespace, so a digit string is not trimmed. -/
theorem trim_eq_self_of_all_isDigitOf {t : Text} (kind : RepresentationKind) (h : ∀ c ∈ t, isDigitOf kind c = true) :
    trim t = t := by
  refine trim_eq_self fun c hc => Bool.eq_false_iff.2 fun hws => ?_
  simpa [isDigitOf_eq_false_of_isWhitespace kind hws] using h c hc

/-- A binary text is accepted exactly where its digits, padded with zeros to `W` characters, are the operand's string
(rule R60). -/
theorem normalizeText_binary_eq_ok_iff {W : Nat} (hW : 1 ≤ W) (raw : Text) (v : Operand W) :
    normalizeText raw .binary W hW = .ok v ↔
      trim raw ≠ [] ∧ (trim raw).all isBinaryDigit = true ∧ (trim raw).length ≤ W ∧
        str v = List.replicate (W - (trim raw).length) '0' ++ trim raw := by
  rw [normalizeText]
  rcases normBin_cases W hW raw with ⟨h0, ha⟩ | ⟨h0, h1, ha⟩ | ⟨h0, h1, h2, ha⟩ | ⟨h0, h1, h2, ha⟩ <;> rw [ha]
  · simp [h0]
  · simp [h1]
  · simp [Nat.not_le.2 h2]
  · have hstr : str (vectorOf W (List.replicate (W - (trim raw).length) '0' ++ trim raw)) =
        List.replicate (W - (trim raw).length) '0' ++ trim raw := by
      refine str_vectorOf (by simp [h2]) fun c hc => ?_
      rcases List.mem_append.1 hc with hc | hc
      · rw [List.eq_of_mem_replicate hc]; rfl
      · exact List.all_eq_true.1 h1 c hc
    constructor
    · rintro ⟨⟩
      exact ⟨h0, h1, h2, hstr⟩
    · rintro ⟨_, _, _, hv⟩
      rw [← hv, vectorOf_str]

/-- A decimal text is accepted exactly where the operand's value is what its digits denote; every such value fits
(rule R61). -/
theorem normalizeText_decimal_eq_ok_iff {W : Nat} (hW : 1 ≤ W) (raw : Text) (v : Operand W) :
    normalizeText raw .decimal W hW = .ok v ↔
      trim raw ≠ [] ∧ (trim raw).all isDecimalDigit = true ∧ val v = numeralValue 10 (trim raw) := by
  have hlt := val_lt v
  rw [normalizeText]
  rcases normDec_cases W hW raw with ⟨h0, ha⟩ | ⟨h0, h1, ha⟩ | ⟨h0, h1, h2, ha⟩ | ⟨h0, h1, h2, ha⟩ <;> rw [ha]
  · simp [h0]
  · simp [h1]
  · have hne : val v ≠ numeralValue 10 (trim raw) := by omega
    simp [hne]
  · have hval : bitsOf W (numeralValue 10 (trim raw)) = v ↔ val v = numeralValue 10 (trim raw) := by
      have hpos := Nat.two_pow_pos W
      rw [← BitVec.toNat_inj, bitsOf, BitVec.toNat_ofNat, Nat.mod_eq_of_lt (by omega), eq_comm, val]
    simp [h0, h1, hval]

/-- Settles O44, by `normalizeText_binary_eq_ok_iff`; the padding does not change the value of the digits. -/
theorem binaryTextNormalizesToItsPaddedPattern : Obligations.BinaryTextNormalizesToItsPaddedPattern := by
  intro W hW raw v t
  have hiff := normalizeText_binary_eq_ok_iff hW raw v
  constructor
  · simpa only [ne_eq, List.length_eq_zero_iff, List.all_eq_true, isBinaryDigit_iff] using hiff
  · intro h
    obtain ⟨_, _, _, hstr⟩ := hiff.1 h
    rw [← numeralValue_str, hstr, numeralValue_replicate_zero_append]

/-- Settles O45, by `normalizeText_decimal_eq_ok_iff` and the positional sum. -/
theorem decimalTextNormalizesToItsValue : Obligations.DecimalTextNormalizesToItsValue := by
  refine ⟨fun W hW raw v => ?_, numeralValue_eq_sum 10⟩
  simpa only [ne_eq, List.length_eq_zero_iff, List.all_eq_true, isDecimalDigit_iff]
    using normalizeText_decimal_eq_ok_iff hW raw v

/-- Settles O46: the string of a vector is a digit string that needs neither trimming nor padding. -/
theorem everyVectorIsTheNormalizersOutput : Obligations.EveryVectorIsTheNormalizersOutput := by
  intro W hW v
  have hdigits := all_str_isBinaryDigit v
  have htrim : trim (str v) = str v := trim_eq_self_of_all_isDigitOf .binary (List.all_eq_true.1 hdigits)
  have hne : str v ≠ [] := List.ne_nil_of_length_pos (by rw [str_length]; exact hW)
  refine (normalizeText_binary_eq_ok_iff hW (str v) v).2 ?_
  rw [htrim, str_length, Nat.sub_self]
  exact ⟨hne, hdigits, le_rfl, rfl⟩

theorem isDecimalDigit_of_mem_toDigits {n : Nat} {c : Char} (hc : c ∈ Nat.toDigits 10 n) : isDecimalDigit c = true := by
  have hdigit : c.isDigit = true := Nat.isDigit_of_mem_toDigits (by decide) (by decide) hc
  rw [isDecimalDigit_iff]
  simpa [Char.isDigit, UInt32.le_iff_toNat_le] using hdigit

/-- Settles O47: a decimal numeral is not trimmed, its leading zeros do not count, and it denotes the number it was
written for. -/
theorem decimalNumeralRoundTrips : Obligations.DecimalNumeralRoundTrips := by
  intro W k hW v
  have hdigits : ∀ c ∈ List.replicate k '0' ++ Nat.toDigits 10 (val v), isDecimalDigit c = true := by
    intro c hc
    rcases List.mem_append.1 hc with hc | hc
    · rw [List.eq_of_mem_replicate hc]; rfl
    · exact isDecimalDigit_of_mem_toDigits hc
  refine (normalizeText_decimal_eq_ok_iff hW _ v).2 ?_
  rw [trim_eq_self_of_all_isDigitOf .decimal hdigits, numeralValue_replicate_zero_append, numeralValue_eq_ofDigitChars,
    Nat.ofDigitChars_ten_toDigits]
  exact ⟨List.append_ne_nil_of_right_ne_nil _ Nat.toDigits_ne_nil, List.all_eq_true.2 hdigits, rfl⟩

end Sys2Proof.Machine
end

section
/-! PROOFS. What the host does with two texts (rules R2, R65, R66, R75). -/

namespace Sys2Proof.Machine

theorem addTexts_eq_added_iff {W : Nat} (hW : 1 ≤ W) (x y : TextOperand) (m : Mode) (r : Result W) :
    addTexts W hW x y m = .added r ↔ ∃ a b, enterOperands W hW x y = .ok (a, b) ∧ r = engineAdd m a b := by
  unfold addTexts
  cases enterOperands W hW x y with
  | ok p => simp [Prod.ext_iff, eq_comm]
  | error e => simp

theorem addTexts_eq_notInvoked_iff {W : Nat} (hW : 1 ≤ W) (x y : TextOperand) (m : Mode)
    (e f : Option NormalizationError) :
    addTexts W hW x y m = .notInvoked e f ↔ enterOperands W hW x y = .error (e, f) := by
  unfold addTexts
  cases enterOperands W hW x y with
  | ok p => simp
  | error e => simp [Prod.ext_iff]

/-- Settles O48, by what entering the two operands answers. -/
theorem hostAddsOnlyIfBothTextsNormalize : Obligations.HostAddsOnlyIfBothTextsNormalize := by
  intro W hW x y m
  constructor
  · intro r
    simp only [addTexts_eq_added_iff, enterOperands_ok_iff, and_assoc]
  · intro e f
    rw [addTexts_eq_notInvoked_iff, enterOperands_error_iff, Prod.mk.injEq, and_comm]

theorem presentTexts_of_ok {s : State} {hW : 1 ≤ s.width} {x y : TextOperand} {a b : Operand s.width}
    (h : enterOperands s.width hW x y = .ok (a, b)) (m : Mode) :
    s.presentTexts x y m = .presented (s.present ⟨2 * s.width + 1, packReq m a b⟩) := by
  rw [State.presentTexts, dif_pos hW, h]

theorem presentTexts_of_error {s : State} {hW : 1 ≤ s.width} {x y : TextOperand} {e f : Option NormalizationError}
    (h : enterOperands s.width hW x y = .error (e, f)) (m : Mode) : s.presentTexts x y m = .notInvoked e f := by
  rw [State.presentTexts, dif_pos hW, h]

/-- The step on a packed request word is `add` on what was packed. -/
theorem step_present_packReq {s : State} (hW : 1 ≤ s.width) (m : Mode) (a b : Operand s.width) :
    step (s.present ⟨2 * s.width + 1, packReq m a b⟩) =
      .next ((s.present ⟨2 * s.width + 1, packReq m a b⟩).respond (engineAdd m a b)) := by
  have hdec : decodeWord s.width ⟨2 * s.width + 1, packReq m a b⟩ = .ok (instrOf s.width m a b) :=
    (decodeWord_ok_iff _ _ _).2 ⟨hW, rfl, by simp [decodeReq]⟩
  rw [step_of_decode_ok (s := s.present _) rfl hdec]
  exact exec_instrOf (s := s.present _) hW m a b

/-- Where one text fails, the host holds the error kind of each that failed (rule R75). -/
theorem enterOperands_of_error {W : Nat} {hW : 1 ≤ W} {x y : TextOperand}
    (h : ∃ e, normalizeText x.raw x.kind W hW = .error e ∨ normalizeText y.raw y.kind W hW = .error e) :
    enterOperands W hW x y =
      .error (errorOf (normalizeText x.raw x.kind W hW), errorOf (normalizeText y.raw y.kind W hW)) := by
  refine (enterOperands_error_iff W hW x y _).2 ⟨rfl, ?_⟩
  obtain ⟨e, he | he⟩ := h
  · simp [he, errorOf]
  · simp [he, errorOf]

/-- Settles O49: the two outcomes of entering the operands, and the step on the packed word. -/
theorem enteredTextsReachTheirResult : Obligations.EnteredTextsReachTheirResult := by
  intro s x y m
  refine ⟨fun hW => ⟨fun a b ha hb => ?_, fun herr => ?_⟩, fun hW => ?_⟩
  · have hok : enterOperands s.width hW x y = .ok (a, b) := (enterOperands_ok_iff _ _ _ _ _ _).2 ⟨ha, hb⟩
    exact ⟨_, presentTexts_of_ok hok m, step_present_packReq hW m a b⟩
  · exact presentTexts_of_error (enterOperands_of_error herr) m
  · rw [State.presentTexts, dif_neg hW]

end Sys2Proof.Machine
end
